-- ==== Sys2Proof/Word.lean ====
section
/-! DEFINITION. The widths the spec gives its values (spec/00_scope.md R7, R9). Every value is an
unsigned bit vector; nothing in this hardware is signed. -/

namespace Sys2Proof

/-- `WIDTH` and `LEN_W`: the accumulator, the result and the length, 16 bits (R7). -/
abbrev Word := BitVec 16

/-- `BYTE_W`: one cell of `BUF`, 8 bits (R7, R40). -/
abbrev Byte := BitVec 8

/-- `ADDR_W`: an index of `BUF`, 17 bits (R7, R40). -/
abbrev Index := BitVec 17

/-- The operation field `op`, one bit: 0 is `CRC16`, 1 is `APPEND_CRC16` (R25, R61). -/
abbrev OpBit := BitVec 1

/-- A command word, 17 bits (R61). -/
abbrev CmdWord := BitVec 17

end Sys2Proof
end

