-- ==== Sys2Proof/Machine/Bits.lean ====
section
/-! DEFINITION. Bit fields and widening (spec/00_scope.md R9, R10). Low and high are by bit weight, never
by the place a value is stored at (R9, R21, R147). -/

namespace Sys2Proof.Machine

/-- `v[7:0]` (R9, R21). -/
def lowByte (v : Word) : Byte := v.extractLsb' 0 8

/-- `v[15:8]` (R9, R21). -/
def highByte (v : Word) : Byte := v.extractLsb' 8 8

/-- `zext_17` of a 16-bit number (R10, R62). -/
def zext17 (v : Word) : Index := v.setWidth 17

end Sys2Proof.Machine
end

