-- ==== Sys2Proof/Machine/CrcCore.lean ====
section
/-! DEFINITION. The datapath (spec/40_crc_core.md): the micro-operations `INIT`, `XORB`, `BITSTEP`, `UPD`
as functions of the accumulator, and the function `crc16` they add up to. -/

namespace Sys2Proof.Machine

/-- `POLY`, the constant of the shift step (R7, R80). -/
def poly : Word := 0xA001#16

/-- `INIT`: the accumulator's value at the start of every call (R81; spec/90_conflicts.md C1). -/
def crcInit : Word := 0xFFFF#16

/-- `XORB b`: `{crc[15:8], crc[7:0] xor b}` (R82). -/
def xorb (c : Word) (b : Byte) : Word := highByte c ++ (lowByte c ^^^ b)

/-- `BITSTEP`: the bit tested is bit 0 before the shift; the shift fills with zero (R83). -/
def bitstep (c : Word) : Word :=
  if c.getLsbD 0 then (c >>> 1) ^^^ poly else c >>> 1

/-- The inverse R83 gives for `BITSTEP`:
`c[0] = n[15]; c[15:1] = (n xor (0xA001 if n[15] = 1 else 0))[14:0]`. -/
def bitstepInv (n : Word) : Word :=
  (n ^^^ (if n.getLsbD 15 then poly else 0#16)).extractLsb' 0 15 ++ n.extractLsb' 15 1

/-- `BITSTEP` taken `k` times. -/
def bitsteps : Nat → Word → Word
  | 0, c => c
  | k + 1, c => bitsteps k (bitstep c)

/-- `UPD b`: `XORB b`, then `BITSTEP` exactly eight times (R84; `STEPS_PER_BYTE`, R7). -/
def upd (c : Word) (b : Byte) : Word := bitsteps 8 (xorb c b)

/-- `crc16(s)`: the left fold of `UPD` over the bytes, from `INIT` (R85). -/
def crc16 (bs : List Byte) : Word := bs.foldl upd crcInit

end Sys2Proof.Machine
end

