-- ==== Sys2Proof/Config.lean ====
section
/-! DEFINITION. What the platform fixes for one machine, and the free values: values the spec leaves
open ("any value", spec/93_implementation_defined.md U6, U7, U12), about which nothing can be proved. -/

namespace Sys2Proof

/-- How many cells of `BUF` exist at power-up: the indices 0 to 65536 of spec/92_eei_decisions.md D3.
DESIGN CHOICE (log 2): how big the backing store is, is the platform's (R45). It is only
`State.reset`'s value of the field `cells`; every statement holds for every value of that field. -/
def Config.bufCells : Nat := 65537

/-- The size of the 17-bit index space (R40). -/
def Config.indexSpace : Nat := 131072

/-- FREE VALUE (log 4). What the n-th undefined read of `crc_out` answers: `done = 0`, U6. -/
opaque Config.freeWord : Nat → Word

/-- FREE VALUE (log 4). What the n-th undefined host read of a cell answers: U7, U12. -/
opaque Config.freeByte : Nat → Byte

end Sys2Proof
end

