-- ==== Sys2Proof/Syntax.lean ====
section
/-! DEFINITION. The commands: one constructor for each row of spec/opcode_table.json (R60, R63).
The micro-operations and the sequencer steps have no encoding and are no commands (R64). -/

namespace Sys2Proof

/-- The two exposed operations, with their one operand, the number of input bytes (R60, R62).
A length above 65535 cannot be written (R8, R62: it is no command). -/
inductive Instr where
  /-- `CRC16 len` (R100). -/
  | crc16 (len : Word)
  /-- `APPEND_CRC16 len` (R101). -/
  | appendCrc16 (len : Word)
  deriving DecidableEq, Repr

/-- The field `op` of the command word (R61). -/
def Instr.op : Instr → OpBit
  | .crc16 _ => 0#1
  | .appendCrc16 _ => 1#1

/-- The field `len` of the command word (R61). -/
def Instr.len : Instr → Word
  | .crc16 len => len
  | .appendCrc16 len => len

end Sys2Proof
end

