-- ==== Sys2Proof/Machine/State.lean ====
section
/-! DEFINITION. The machine's state (spec/10_state.md): the seven pieces the spec names, and five fields
of the model's own: which cells exist, which hold no value after a cut append, what the host does
next, what it last read, and the number of free values drawn. -/

namespace Sys2Proof.Machine

/-- The sequencer's phase, an enumeration of four; its binary encoding is not fixed (R26, U14). -/
inductive Phase where
  /-- No call in progress; a command is accepted. -/
  | idle
  /-- Walking the input bytes. -/
  | run
  /-- About to write the low checksum byte. -/
  | appLo
  /-- About to write the high checksum byte. -/
  | appHi
  deriving DecidableEq, Repr

/-- One move of the host (spec/41_operations.md R113, R114). The host is outside the block: its moves
are an input, and the list `State.host` holds those to come. -/
inductive HostMove where
  /-- The host does nothing: the block makes its own step (R102 to R106). -/
  | wait
  /-- The BIG STEP (R12, R100, R101, D1): the host presents the word with `START` and makes no other
  move until the call is over; the whole call is one transition. -/
  | call (cmd : CmdWord)
  /-- The SMALL STEP `START` (R102): the word is latched, and the call then runs step by step. -/
  | start (cmd : CmdWord)
  /-- `GET`, the result read (R107). -/
  | get
  /-- A read of `busy` and `done` (R28, R29). -/
  | status
  /-- A read of a cell of `BUF` by the platform's own means (R107, R114). -/
  | read (a : Index)
  /-- A write of a cell of `BUF` (R23, R114, R145). -/
  | write (a : Index) (b : Byte)
  /-- `RESET` (R140). -/
  | reset
  deriving DecidableEq, Repr

/-- What a read by the host answered. -/
inductive Reply where
  /-- `GET`: 16 bits (R107). -/
  | result (v : Word)
  /-- A cell of `BUF`. -/
  | cell (b : Byte)
  /-- `busy` and `done` (R28). -/
  | status (busy done : Bool)
  deriving DecidableEq, Repr

/-- `BUF`: the cells that hold a value, as pairs of index and byte with strictly rising indices. An
unlisted cell holds no value (R35). -/
abbrev Memory := List Host.Cell

/-- Everything the machine holds. -/
structure State where
  /-- The CRC accumulator, 16 bits (R20). -/
  crc : Word
  /-- The buffer space `BUF` (R23, R40). -/
  buf : Memory
  /-- The latched number of input bytes, 16 bits (R25). -/
  len : Word
  /-- The latched operation, 1 bit (R25). -/
  op : OpBit
  /-- The number of input bytes consumed, 16 bits (R26). -/
  idx : Word
  /-- The sequencer's phase (R26). -/
  phase : Phase
  /-- A result is available (R28). -/
  done : Bool
  /-- MODEL'S OWN (log 2): the cells 0 to `cells - 1` of `BUF` exist (R45, R144: the platform's). -/
  cells : Nat
  /-- MODEL'S OWN (log 3): cells that hold no value although they may be listed: those a `RESET` cut an
  append at (R140, U12), strictly rising. -/
  void : List Nat
  /-- MODEL'S OWN (log 1): the host's moves to come, the next one first. -/
  host : List HostMove
  /-- MODEL'S OWN (log 5): what the host's last read answered. -/
  reply : Option Reply
  /-- MODEL'S OWN (log 4): how many free values have been drawn. -/
  draws : Nat
  deriving DecidableEq, Repr

/-- The state right after reset (R34, R140, R141). The first, third to seventh are the spec's own
values; `BUF` holds nothing (R35); the last five are the model's (logs 1 to 5). -/
def State.reset : State where
  crc := 0xFFFF#16
  buf := []
  len := 0#16
  op := 0#1
  idx := 0#16
  phase := .idle
  done := false
  cells := Config.bufCells
  void := []
  host := []
  reply := none
  draws := 0

/-- Why the machine stops. None is an exception of the block, which raises none (R120): each is a call
or a host move to which the spec gives no meaning (R122). -/
inductive Fault where
  /-- A cell that holds no value is read: by `BYTE` or by a whole call (R35, R122, U8), or by the host.
  SAFE: the model stops where the hardware goes on with some byte. -/
  | cellHoldsNoValue
  /-- A cell that does not exist is read by `BYTE` or by a whole call, or read or written by the host
  (R54: what a platform does that refuses an access is a precondition of the call). SAFE: the model
  stops. -/
  | noSuchCell
  /-- A whole `APPEND_CRC16` call, taken as one step, whose cells `len` and `len + 1` do not both exist:
  the call never reaches `done = 1` (R144, U9). SAFE: the model stops. (Taken in small steps the same
  call is stuck in `APP_LO` or `APP_HI`, where a `RESET` still works.) -/
  | noRoomForChecksum
  deriving DecidableEq, Repr

/-- Why the machine gives no meaning. -/
inductive Refusal where
  /-- An instruction with no meaning yet; raised by `exec`'s arm. SAFE. (No arm does.) -/
  | notModelled (mnemonic : String)
  /-- The host writes a cell `len` or `len + 1` of a running `APPEND_CRC16` call, which R114 and R49 forbid
  and to which the spec gives no outcome; raised by `hostWrite`. SAFE: the model stops. -/
  | hostWritesOutputDuringCall
  deriving DecidableEq, Repr

/-- The three outcomes of a step of this machine. -/
abbrev Result := Host.Outcome State Fault Refusal

end Sys2Proof.Machine
end

