-- ==== Sys2Proof/Machine/Ops.lean ====
section
/-! DEFINITION. The named operations over the buffer and the registers. There is no operation that takes
an exception and none that returns from one: the block raises none, takes no interrupt, saves no state
and has no handler (spec/60_exceptions.md R120, R123, R125). -/

namespace Sys2Proof.Machine

/-! ### The buffer as a list of cells -/

/-- The byte the cell `a` holds, if it holds one. -/
def Memory.get? : Memory → Nat → Option Byte
  | [], _ => none
  | (k, b) :: m, a => if k = a then some b else Memory.get? m a

/-- The cell `a` takes the value `v`; every other cell is as before (R43). -/
def Memory.set : Memory → Nat → Byte → Memory
  | [], a, v => [(a, v)]
  | (k, b) :: m, a, v =>
    if a < k then (a, v) :: (k, b) :: m
    else if a = k then (a, v) :: m
    else (k, b) :: Memory.set m a v

/-- The canonical form: indices strictly rising. An unlisted cell holds no value, so no entry can equal
what an unlisted one reads as. -/
abbrev Memory.wf (m : Memory) : Prop := m.Pairwise fun x y => x.1 < y.1

/-! ### The cells that hold no value after a cut append -/

/-- The index joins the list, which stays strictly rising. -/
def markVoid : List Nat → Nat → List Nat
  | [], a => [a]
  | k :: v, a => if a < k then a :: k :: v else if a = k then k :: v else k :: markVoid v a

/-- The index leaves the list: its cell holds a value again. -/
def clearVoid (v : List Nat) (a : Nat) : List Nat := v.filter fun k => k ≠ a

/-! ### The memory primitives (R54) -/

/-- The cell exists on this platform (R45, R144). -/
def cellExists (s : State) (a : Nat) : Bool := decide (a < s.cells)

/-- `MemRead(a, 1)` (R43, R54): the cell's value; it changes nothing (R44). A cell that does not exist or
holds no value stops the read (R35, R122). -/
def memRead (s : State) (a : Nat) : Except Fault Byte :=
  if cellExists s a then
    if a ∈ s.void then .error .cellHoldsNoValue
    else
      match s.buf.get? a with
      | some b => .ok b
      | none => .error .cellHoldsNoValue
  else .error .noSuchCell

/-- `MemWrite(a, 1, v)` (R43, R54): sets the cell and changes no other cell and no register. That the
cell exists is the caller's to see to (R144). -/
def memWrite (s : State) (a : Nat) (v : Byte) : State :=
  { s with buf := s.buf.set a v, void := clearVoid s.void a }

/-! ### The registers -/

/-- The six writes of `START` (R102), `INIT` (R81) among them; they happen together. -/
def latchCommand (op : OpBit) (len : Word) (s : State) : State :=
  { s with op := op, len := len, crc := crcInit, idx := 0#16, done := false, phase := .run }

/-- The two writes of `BYTE` (R103): `UPD b` and the step to the next index. -/
def consumeByte (b : Byte) (s : State) : State :=
  { s with crc := upd s.crc b, idx := s.idx + 1#16 }

/-- The sequencer goes to another phase. -/
def setPhase (p : Phase) (s : State) : State := { s with phase := p }

/-- A call completes: `phase <- IDLE`, `done <- 1` (R104, R106). -/
def completeCall (s : State) : State := { s with phase := .idle, done := true }

/-- The registers at the end of a whole call (R100, R101): the checksum, `done = 1`, `phase = IDLE`,
`idx = len`, and the latches as the command gave them. -/
def finishCall (op : OpBit) (len : Word) (c : Word) (s : State) : State :=
  { s with op := op, len := len, idx := len, crc := c, phase := .idle, done := true }

/-- The host's read is answered. -/
def answer (r : Reply) (s : State) : State := { s with reply := some r }

/-- One free value has been drawn. -/
def drawFree (s : State) : State := { s with draws := s.draws + 1 }

/-- The host's moves to come are these. -/
def withHost (ms : List HostMove) (s : State) : State := { s with host := ms }

end Sys2Proof.Machine
end

