-- ==== Sys2Proof/Machine/Operands.lean ====
section
/-! DEFINITION. The operand forms (spec/41_operations.md R112): one addressing mode, the absolute buffer
index, and the implicit buffer operand of a command (spec/30_encoding.md R62). -/

namespace Sys2Proof.Machine

/-- The load of `BYTE`: `zext_17(idx)` (R103, R112). -/
def byteIndex (s : State) : Index := zext17 s.idx

/-- The store of `APPLO`: `zext_17(len)` (R105, R112). -/
def lowIndex (len : Word) : Index := zext17 len

/-- The store of `APPHI`: `zext_17(len) + 1`, a 17-bit sum, no wrap (R106, R45). -/
def highIndex (len : Word) : Index := zext17 len + 1#17

/-- The `n` cells from index `i` on, read in ascending order (R48); the first that cannot be read stops
it. -/
def readCells (s : State) : Nat → Nat → Except Fault (List Byte)
  | _, 0 => .ok []
  | i, n + 1 =>
    match memRead s i with
    | .error f => .error f
    | .ok b =>
      match readCells s (i + 1) n with
      | .error f => .error f
      | .ok bs => .ok (b :: bs)

/-- The buffer operand of a command: `BUF[0], ..., BUF[len - 1]` (R62, R100). -/
def inputBytes (len : Word) (s : State) : Except Fault (List Byte) := readCells s 0 len.toNat

/-- Both cells an append writes exist (R101, R144). -/
def roomForChecksum (len : Word) (s : State) : Bool :=
  cellExists s (lowIndex len).toNat && cellExists s (highIndex len).toNat

/-- The two stores of an append: the checksum little-endian, low byte at the lower index (R41, R101). -/
def appendChecksum (len : Word) (c : Word) (s : State) : State :=
  memWrite (memWrite s (lowIndex len).toNat (lowByte c)) (highIndex len).toNat (highByte c)

end Sys2Proof.Machine
end

