-- ==== Sys2Proof/Machine/Flags.lean ====
section
/-! DEFINITION. What the host can see of the block (spec/10_state.md R28, R29, R32). The algorithm has no
condition codes: the one bit it tests is not kept (R28, R83). `done` is a register; `busy` and
`crc_out` are derived. -/

namespace Sys2Proof.Machine

/-- `busy = 1` exactly when `phase != IDLE` (R28). -/
def busy (s : State) : Bool := decide (s.phase ≠ .idle)

/-- `crc_out = crc`, defined only while `done = 1` (R22, R107); else a free value (R32, U6). -/
def crcOut (s : State) : Word := if s.done then s.crc else Config.freeWord s.draws

/-- An append is in progress: from its `START` until `done = 1`. -/
def appending (s : State) : Bool := busy s && decide (s.op = 1#1)

/-- The cell is one of the two an append in progress writes (R47, R143). -/
def isOutputCell (a : Index) (s : State) : Bool :=
  decide (a = lowIndex s.len) || decide (a = highIndex s.len)

end Sys2Proof.Machine
end

