-- ==== Sys2Proof/Machine/Commands.lean ====
section
/-! DEFINITION. The two commands as whole calls, the spec's normative level (spec/41_operations.md R100,
R101; spec/92_eei_decisions.md D1). That the sequencer's small steps come to the same is R110, stated as
an obligation. -/

namespace Sys2Proof.Machine

/-- `CRC16 len` (R100). With `phase != IDLE` the command is not taken and has no effect (R102, R127). An
input cell with no value stops the call (R35, R122). -/
def execCrc16 (len : Word) (s : State) : Result :=
  if busy s then .next s
  else
    match inputBytes len s with
    | .error f => .fault f
    | .ok bs => .next (finishCall 0#1 len (crc16 bs) s)

/-- `APPEND_CRC16 len` (R101). With `phase != IDLE` it is not taken (R102, R127). An input cell with no
value stops the call (R35); so does a missing output cell, where the call never ends (R144, U9). -/
def execAppendCrc16 (len : Word) (s : State) : Result :=
  if busy s then .next s
  else
    match inputBytes len s with
    | .error f => .fault f
    | .ok bs =>
      if roomForChecksum len s then
        .next (finishCall 1#1 len (crc16 bs) (appendChecksum len (crc16 bs) s))
      else .fault .noRoomForChecksum

end Sys2Proof.Machine
end

