-- ==== Sys2Proof/Machine/Dispatch.lean ====
section
/-! DEFINITION. One arm per command. -/

namespace Sys2Proof.Machine

def exec (i : Instr) (s : State) : Host.Outcome State Fault Refusal :=
  match i with
  | .crc16 len => Sys2Proof.Machine.execCrc16 len s
  | .appendCrc16 len => Sys2Proof.Machine.execAppendCrc16 len s

end Sys2Proof.Machine
end

