-- ==== Sys2Proof/WellFormed.lean ====
section
/-! DEFINITION. Well-formed commands. A command AS WRITTEN is a mnemonic and a number (R67); the one
check the spec makes of it is that the number is 0 to 65535 (R62, R67). A command that passed it is an
`Instr`, whose 16-bit field cannot break it. -/

namespace Sys2Proof

/-- A command as the syntax of R67 writes it: the operation its mnemonic names, and a number. -/
structure SourceCommand where
  /-- 0 for the mnemonic `CRC16`, 1 for `APPEND_CRC16`. -/
  op : OpBit
  /-- The operand as written: any number. -/
  len : Nat
  deriving DecidableEq, Repr

/-- The number is 0 to 65535 (R67). -/
def SourceCommand.wf (c : SourceCommand) : Bool := decide (c.len ≤ 65535)

/-- The command a well-formed text stands for; a length above 65535 has none (R8, R62, U16). -/
def SourceCommand.assemble (c : SourceCommand) : Option Instr :=
  if c.wf then
    if c.op = 0#1 then some (.crc16 (BitVec.ofNat 16 c.len))
    else some (.appendCrc16 (BitVec.ofNat 16 c.len))
  else none

/-- How a command is written (R67). -/
def Instr.source (i : Instr) : SourceCommand := ⟨i.op, i.len.toNat⟩

/-- A command is well-formed when its written form is. Every `Instr` is (Laws/Encoding.lean,
`Instr.wf_true`): no command word is reserved or illegal (R65). -/
def Instr.wf (i : Instr) : Bool := i.source.wf

end Sys2Proof
end

