-- ==== Sys2Proof/Decode.lean ====
section
/-! DEFINITION. Decoding a command word, and the encoder (spec/30_encoding.md R61 to R66). The word is
presented by the host with `START`; it is not fetched from a memory and has no byte order (R61, R52). -/

namespace Sys2Proof

/-- The field `op`: bit 16 (R61). -/
def opField (cmd : CmdWord) : OpBit := cmd.extractLsb' 16 1

/-- The field `len`: bits 15 to 0, unsigned (R61, R62). -/
def lenField (cmd : CmdWord) : Word := cmd.extractLsb' 0 16

/-- R63: `if cmd[16] = 0 then CRC16(cmd[15:0]) else APPEND_CRC16(cmd[15:0])`; total on all 2^17 words
(R65). -/
def decode (cmd : CmdWord) : Instr :=
  if opField cmd = 0#1 then .crc16 (lenField cmd) else .appendCrc16 (lenField cmd)

/-- Why a number is no command word. -/
inductive DecodeReject where
  /-- It has a bit above bit 16: there is one command length, 17 bits (R61, R66). -/
  | widerThanCommandWord
  deriving DecidableEq, Repr

/-- The 17-bit word a number is, or the reason it is none (R61, R66). -/
def commandWord (w : Nat) : Except DecodeReject CmdWord :=
  if w < 131072 then .ok (BitVec.ofNat 17 w) else .error .widerThanCommandWord

/-- Decoding any number: the command, or the rejection by name. -/
def decodeNumber (w : Nat) : Except DecodeReject Instr := (commandWord w).map decode

/-- What the decoder reads from an instruction of `nbits` bits with bits `w`, numbered as
spec/opcode_table.json numbers them; the bits from `nbits` on are 0. A number with a bit above
bit 16 is no command word (R61). -/
def decodeTableWord (nbits w : Nat) : Option Instr :=
  match decodeNumber (w % 2 ^ nbits) with
  | .ok i => some i
  | .error _ => none

/-- The command word of a command: `{op, len}`, with `op` the more significant part (R61). -/
def encode (i : Instr) : CmdWord := i.op ++ i.len

end Sys2Proof
end

