-- ==== Sys2Proof/Machine/Sequencer.lean ====
section
/-! DEFINITION. The sequencer's small steps (spec/41_operations.md R102 to R106). -/

namespace Sys2Proof.Machine

/-- `BYTE` (R103): the next input byte is read and consumed; `phase` stays `RUN`. -/
def byteStep (s : State) : Result :=
  match memRead s (byteIndex s).toNat with
  | .error f => .fault f
  | .ok b => .next (consumeByte b s)

/-- `END` (R104): `CRC16` is complete; `APPEND_CRC16` goes on to write. -/
def endStep (s : State) : Result :=
  if s.op = 0#1 then .next (completeCall s) else .next (setPhase .appLo s)

/-- `APPLO` (R105). Where the cell does not exist the write is not admitted: the step is stuck, nothing
changes, and the call never reaches `done = 1` (R144, U9). -/
def appLoStep (s : State) : Result :=
  if cellExists s (lowIndex s.len).toNat then
    .next (setPhase .appHi (memWrite s (lowIndex s.len).toNat (lowByte s.crc)))
  else .next s

/-- `APPHI` (R106), stuck in the same way where its cell does not exist (R144). -/
def appHiStep (s : State) : Result :=
  if cellExists s (highIndex s.len).toNat then
    .next (completeCall (memWrite s (highIndex s.len).toNat (highByte s.crc)))
  else .next s

/-- The block's own step: the one its phase enables (R26). In `IDLE` none is, and nothing changes (R133);
nor is one in `RUN` with `idx` above `len`, which no run reaches (R26). -/
def blockStep (s : State) : Result :=
  match s.phase with
  | .idle => .next s
  | .run =>
    if s.idx < s.len then byteStep s
    else if s.idx = s.len then endStep s
    else .next s
  | .appLo => appLoStep s
  | .appHi => appHiStep s

end Sys2Proof.Machine
end

