-- ==== Sys2Proof/Machine/HostMoves.lean ====
section
/-! DEFINITION. The host's moves (spec/41_operations.md R113, R114): `START`, `GET`, `RESET`, reads of the
status and reads and writes of the buffer; and which command, if any, the next step runs whole. -/

namespace Sys2Proof.Machine

/-- `START(op_in, len_in)` with a command word, in `IDLE` (R61, R102). -/
def startMove (cmd : CmdWord) (s : State) : Result :=
  .next (latchCommand (decode cmd).op (decode cmd).len s)

/-- `GET` (R107): answers `crc_out` and changes nothing in the block. With `done = 0` the answer is a free
value (R32, U6), and one value is drawn. -/
def getMove (s : State) : Result :=
  if s.done then .next (answer (.result (crcOut s)) s)
  else .next (drawFree (answer (.result (crcOut s)) s))

/-- A read of `busy` and `done` (R28, R29); it changes nothing in the block. -/
def statusMove (s : State) : Result := .next (answer (.status (busy s) s.done) s)

/-- A host read of a cell. The two cells of an append in progress (R47, R143, U7) and a cell whose append
a `RESET` cut short (R140, U12) answer a free value; a cell nothing has written holds none (R35). -/
def hostRead (a : Index) (s : State) : Result :=
  if cellExists s a.toNat then
    if (appending s && isOutputCell a s) || decide (a.toNat ∈ s.void) then
      .next (drawFree (answer (.cell (Config.freeByte s.draws)) s))
    else
      match s.buf.get? a.toNat with
      | some b => .next (answer (.cell b) s)
      | none => .fault .cellHoldsNoValue
  else .fault .noSuchCell

/-- A host write of a cell (R23, R145). During a call a written input cell is read by its `BYTE` with the
value it then holds (R142, U11); to a write of an append's output cells before `done = 1` the spec gives
no outcome (R49, R114). -/
def hostWrite (a : Index) (b : Byte) (s : State) : Result :=
  if cellExists s a.toNat then
    if appending s && isOutputCell a s then .refused .hostWritesOutputDuringCall
    else .next (memWrite s a.toNat b)
  else .fault .noSuchCell

/-- The cells that hold no value after a `RESET`: those that held none before, and the two output cells
of an append it cuts short (R140, U12). -/
def voidAfterReset (s : State) : List Nat :=
  if appending s then
    markVoid (markVoid s.void (lowIndex s.len).toNat) (highIndex s.len).toNat
  else s.void

/-- `RESET` (R140): the six registers take their reset values, `BUF` is unchanged, and an append in
progress is abandoned. -/
def resetMove (s : State) : State :=
  { s with
    phase := .idle, done := false, crc := 0xFFFF#16, idx := 0#16, len := 0#16, op := 0#1,
    void := voidAfterReset s }

/-- The command the next step runs as a whole call, and the state it runs on: a command presented with
`call` while `phase = IDLE` (R102). -/
def nextCall (s : State) : Option (Instr × State) :=
  match s.host with
  | .call cmd :: ms => if busy s then none else some (decode cmd, withHost ms s)
  | _ => none

/-- Every other step: the host's next move, or the block's own. A command presented while `busy = 1` is
not taken: the host holds it, and the running call goes on (R102, R124, R127). `RESET` wins over the
step the block would make (R124, R140). -/
def otherStep (s : State) : Result :=
  match s.host with
  | [] => blockStep s
  | .wait :: ms => blockStep (withHost ms s)
  | .call _ :: _ => blockStep s
  | .start cmd :: ms => if busy s then blockStep s else startMove cmd (withHost ms s)
  | .get :: ms => getMove (withHost ms s)
  | .status :: ms => statusMove (withHost ms s)
  | .read a :: ms => hostRead a (withHost ms s)
  | .write a b :: ms => hostWrite a b (withHost ms s)
  | .reset :: ms => .next (resetMove (withHost ms s))

/-- `s` with the instruction of `nbits` bits `w` presented, so that the next step runs it: the word as
the host's next move, in `IDLE`, where a command is taken (R102). A number that is no command word cannot
be presented (R61). -/
def presentWord (s : State) (nbits w : Nat) : State :=
  match commandWord (w % 2 ^ nbits) with
  | .ok cmd => withHost (.call cmd :: s.host) (setPhase .idle s)
  | .error _ => s

end Sys2Proof.Machine
end

