-- ==== Sys2Proof/Machine/Step.lean ====
section
/-! DEFINITION. One step of the machine: a whole call if the host presents one that is taken, else the
host's next move or the block's own step. -/

namespace Sys2Proof.Machine

/-- One step (spec/41_operations.md section 2). -/
def step (s : State) : Host.Outcome State Fault Refusal :=
  match nextCall s with
  | some (i, s') => exec i s'
  | none => otherStep s

/-- `s` with an instruction where `step` takes its next one: presented by the host (log 1). -/
def State.withFetchWord (s : State) (nbits w : Nat) : State := presentWord s nbits w

/-- `k` steps, to the first fault or refusal. -/
def runSteps : Nat → State → Result
  | 0, s => .next s
  | k + 1, s =>
    match step s with
    | .next t => runSteps k t
    | .fault f => .fault f
    | .refused r => .refused r

end Sys2Proof.Machine
end

