-- ==== Sys2Proof/Safety.lean ====
section
/-! DEFINITION. The terms the statements use: cells that hold a byte, the input of a call, the invariant
of the machine, and the condition that the accumulator is the checksum of what has been consumed. -/

namespace Sys2Proof.Machine

/-- The cell exists and holds the byte (R35). -/
abbrev HoldsByte (s : State) (a : Nat) (b : Byte) : Prop :=
  a < s.cells ∧ a ∉ s.void ∧ s.buf.get? a = some b

/-- The first `n` cells hold these bytes, cell 0 first: the input of a call (R23, R100). -/
abbrev InputIs (s : State) (n : Nat) (bs : List Byte) : Prop :=
  bs.length = n ∧ ∀ i, i < n → ∃ b, bs[i]? = some b ∧ HoldsByte s i b

/-- The cells `len` and `len + 1` exist (R101, R144). -/
abbrev HasRoom (s : State) (len : Word) : Prop := len.toNat + 1 < s.cells

/-- `BUF` is in canonical form, its listed cells exist, and there are no more cells than the 17-bit index
space has (R40); the list of cells with no value is in canonical form. -/
abbrev BufferOk (s : State) : Prop :=
  s.buf.wf ∧ (∀ c ∈ s.buf, c.1 < s.cells) ∧ s.cells ≤ Config.indexSpace ∧
    s.void.Pairwise (· < ·)

/-- The sequencer: `idx` never goes beyond `len`, and is `len` outside `RUN` (R26, R27); the append phases
are reached only with `op = 1` (R105); `done = 1` only in `IDLE` (R28, R151). -/
abbrev SequencerOk (s : State) : Prop :=
  s.idx ≤ s.len ∧ (s.phase ≠ .run → s.idx = s.len) ∧
    (s.phase = .appLo ∨ s.phase = .appHi → s.op = 1#1) ∧ (s.done = true → s.phase = .idle)

/-- The machine's invariant. -/
abbrev Inv (s : State) : Prop := BufferOk s ∧ SequencerOk s

/-- R103's invariant, R90: `crc = crc16(BUF[0 .. idx-1])`. -/
abbrev ConsumedPrefix (s : State) : Prop :=
  ∃ bs, InputIs s s.idx.toNat bs ∧ s.crc = crc16 bs

/-- The registers and flags of the block, less its buffer: what a call's outcome gives them. -/
abbrev SameRegisters (s t : State) : Prop :=
  s.crc = t.crc ∧ s.len = t.len ∧ s.op = t.op ∧ s.idx = t.idx ∧ s.phase = t.phase ∧ s.done = t.done

/-- The fields of the model's own that no step of the block changes. -/
abbrev SameSurroundings (s t : State) : Prop :=
  t.cells = s.cells ∧ t.host = s.host ∧ t.reply = s.reply ∧ t.draws = s.draws

end Sys2Proof.Machine
end

