-- ==== Sys2Proof/Certificates/Slice0/Obligations.lean ====
section
/-! DEFINITION. The statements for the provers. Each names the rule of spec/ it formalises. `exec` is a
whole call (R100, R101); `blockStep` is the block's own small step (R103 to R106); `step` is one step of
the machine, which `StepRunsPresentedCommand` and `StepMakesTheNextMove` tie to the two. -/

open Sys2Proof Sys2Proof.Machine

/-! ### Encoding -/

/-- R61 to R63, R67: the word of a command decodes to it, through the decoder, through the opcode table's
bit numbers, and through its written form. -/
def Obligations.DecodeEncodeRoundTrip : Prop :=
  ∀ i : Instr,
    decode (encode i) = i ∧ decodeTableWord 24 (encode i).toNat = some i ∧
      i.source.assemble = some i ∧ i.wf = true

/-- R63, R65: every word is a command, and different words are different commands. -/
def Obligations.EncodeDecodeRoundTrip : Prop :=
  ∀ w w' : CmdWord, encode (decode w) = w ∧ (decode w = decode w' → w = w')

/-- R63: bit 16 chooses the command and bits 15 to 0 are its length. R61, R66: a number with a bit above
bit 16 is rejected by name, and every other number is decoded. -/
def Obligations.DecoderFollowsBitSixteen : Prop :=
  (∀ w : CmdWord,
    (w.getLsbD 16 = false → ∃ n : Word, n.toNat = w.toNat ∧ decode w = .crc16 n) ∧
    (w.getLsbD 16 = true → ∃ n : Word, n.toNat + 65536 = w.toNat ∧ decode w = .appendCrc16 n)) ∧
  (∀ k : Nat, k < 131072 → decodeNumber k = .ok (decode (BitVec.ofNat 17 k))) ∧
  (∀ k : Nat, 131072 ≤ k → decodeNumber k = .error .widerThanCommandWord)

/-- The command words of spec/95_test_vectors.md section 5. -/
def Obligations.SpecWordsDecode : Prop :=
  decode 0x00000#17 = .crc16 0#16 ∧ decode 0x00009#17 = .crc16 9#16 ∧
    decode 0x0FFFF#17 = .crc16 65535#16 ∧ decode 0x08000#17 = .crc16 32768#16 ∧
    decode 0x10000#17 = .appendCrc16 0#16 ∧ decode 0x10006#17 = .appendCrc16 6#16 ∧
    decode 0x1FFFF#17 = .appendCrc16 65535#16

/-! ### Reset -/

/-- R34: what reset leaves, for the six registers whose values the spec gives (its own choice, D8). -/
def Obligations.ResetHoldsSpecValues : Prop :=
  State.reset.phase = .idle ∧ State.reset.done = false ∧ State.reset.crc = 0xFFFF#16 ∧
    State.reset.idx = 0#16 ∧ State.reset.len = 0#16 ∧ State.reset.op = 0#1

/-- The machine's invariant holds at reset, and so does the checksum of the consumed prefix. -/
def Obligations.InvariantsHoldAtReset : Prop := Inv State.reset ∧ ConsumedPrefix State.reset

/-- R140: `RESET` is enabled in every state and wins over any other step; the six registers take their
reset values (the spec's own choice, D8) and `BUF` is unchanged. The two output cells of an append it
cuts short hold no value after it; no other cell loses its value or gains one (log 3: that this is so
of an append alone is the model's reading of R140 with U12). -/
def Obligations.ResetFromEveryState : Prop :=
  ∀ (s : State) (ms : List HostMove), s.host = .reset :: ms →
    ∃ t, step s = .next t ∧
      t.phase = .idle ∧ t.done = false ∧ t.crc = 0xFFFF#16 ∧ t.idx = 0#16 ∧ t.len = 0#16 ∧
      t.op = 0#1 ∧ t.buf = s.buf ∧ t.cells = s.cells ∧ t.host = ms ∧ t.reply = s.reply ∧
      t.draws = s.draws ∧
      (∀ a, a ∈ t.void ↔
        a ∈ s.void ∨ (s.phase ≠ .idle ∧ s.op = 1#1 ∧ (a = s.len.toNat ∨ a = s.len.toNat + 1)))

/-! ### Stepping -/

/-- A step runs the presented command: in `IDLE`, with a command as the host's next move, `step` is `exec`
of what its word decodes to, on the state past that move; and so it does of a word placed by
`withFetchWord`. -/
def Obligations.StepRunsPresentedCommand : Prop :=
  (∀ (s : State) (w : CmdWord) (ms : List HostMove), s.phase = .idle → s.host = .call w :: ms →
    step s = exec (decode w) { s with host := ms }) ∧
  (∀ (s : State) (nbits w : Nat) (i : Instr), decodeTableWord nbits w = some i →
    step (s.withFetchWord nbits w) = exec i { s with phase := .idle })

/-- What `step` does with each other move of the host: with none, and with `wait`, the block makes its own
step; the reads and writes of the host leave the block where it is. -/
def Obligations.StepMakesTheNextMove : Prop :=
  ∀ (s : State) (ms : List HostMove),
    (s.host = [] → step s = blockStep s) ∧
    (s.host = .wait :: ms → step s = blockStep { s with host := ms }) ∧
    (∀ a, s.host = .read a :: ms → step s = hostRead a { s with host := ms }) ∧
    (∀ a b, s.host = .write a b :: ms → step s = hostWrite a b { s with host := ms }) ∧
    (s.host = .status :: ms →
      step s = .next { s with host := ms, reply := some (.status (decide (s.phase ≠ .idle)) s.done) })

/-- R127 (the spec's own choice, D7), with log 8: while `phase != IDLE` a command is neither latched nor queued
and has no effect: `exec` changes nothing; a word the host presents, with either of its moves, stays with the host while the running call
makes its own step; and the host sees `busy = 1`. That the step is then the block's own and the move stays
at the head of the host's list is what log 8 adds. -/
def Obligations.BusyCommandNotTaken : Prop :=
  ∀ (s : State) (i : Instr) (w : CmdWord) (ms : List HostMove), s.phase ≠ .idle →
    exec i s = .next s ∧ busy s = true ∧
      (s.host = .start w :: ms ∨ s.host = .call w :: ms →
        step s = blockStep s ∧ ∀ t, step s = .next t → t.host = s.host)

/-! ### The datapath -/

/-- R82: `XORB` writes the low byte only, with equal weights; as one 16-bit value it is the exclusive or
with the byte widened by zeros. -/
def Obligations.XorbChangesLowByteOnly : Prop :=
  ∀ (c : Word) (b : Byte),
    highByte (xorb c b) = highByte c ∧ lowByte (xorb c b) = lowByte c ^^^ b ∧
      xorb c b = c ^^^ b.setWidth 16

/-- R83: `BITSTEP` as a number: the bit tested is bit 0 before the shift, the shift is a division by two
with zero fill, and the exclusive or with 0xA001 is applied to the shifted value. -/
def Obligations.BitstepShiftsThenXors : Prop :=
  ∀ c : Word,
    (c.toNat % 2 = 1 → (bitstep c).toNat = (c.toNat / 2) ^^^ 0xA001) ∧
    (c.toNat % 2 = 0 → (bitstep c).toNat = c.toNat / 2)

/-- The bit equations of `BITSTEP`, which spec/40_crc_core.md section 2 derives under R83, and the inverse
it gives there, on both sides. -/
def Obligations.BitstepBitByBit : Prop :=
  ∀ c : Word,
    (bitstep c).getLsbD 15 = c.getLsbD 0 ∧
    (bitstep c).getLsbD 14 = c.getLsbD 15 ∧
    (bitstep c).getLsbD 13 = (c.getLsbD 14 ^^ c.getLsbD 0) ∧
    (∀ i, 1 ≤ i → i ≤ 12 → (bitstep c).getLsbD i = c.getLsbD (i + 1)) ∧
    (bitstep c).getLsbD 0 = (c.getLsbD 1 ^^ c.getLsbD 0) ∧
    bitstepInv (bitstep c) = c ∧ bitstep (bitstepInv c) = c

/-- R84: `UPD` is the exclusive or with the byte, then exactly eight `BITSTEP`s; it depends on the byte
only through its sum with the low byte of the accumulator. -/
def Obligations.UpdIsXorThenEightBitsteps : Prop :=
  (∀ (c : Word) (b : Byte), upd c b = bitstep^[8] (c ^^^ b.setWidth 16)) ∧
  (∀ (c c' : Word) (b b' : Byte), highByte c = highByte c' → lowByte c ^^^ b = lowByte c' ^^^ b' →
    upd c b = upd c' b')

/-- R85: `crc16` is the left fold of `UPD` from 0xFFFF. -/
def Obligations.ChecksumIsLeftFold : Prop :=
  crc16 [] = 0xFFFF#16 ∧ ∀ (bs : List Byte) (b : Byte), crc16 (bs ++ [b]) = upd (crc16 bs) b

/-- R92 (a), derived by the spec from R82 to R85: linearity. -/
def Obligations.UpdIsLinear : Prop :=
  (∀ x y : Word, bitstep (x ^^^ y) = bitstep x ^^^ bitstep y) ∧
  (∀ (x y : Word) (a b : Byte), upd (x ^^^ y) (a ^^^ b) = upd x a ^^^ upd y b) ∧
  (∀ (c : Word) (b : Byte), upd c b = upd c 0#8 ^^^ upd 0#16 b)

/-- R92 (b), derived by the spec: the table form, with the table `T[k] = upd(0x0000, k)`. -/
def Obligations.UpdByTable : Prop :=
  ∀ (c : Word) (b : Byte), upd c b = (highByte c).setWidth 16 ^^^ upd 0#16 (lowByte c ^^^ b)

/-- R92 (c), derived by the spec: the checksum over a sequence and its two checksum bytes, low first, is zero. -/
def Obligations.AppendedChecksumHasZeroResidue : Prop :=
  ∀ bs : List Byte, crc16 (bs ++ [lowByte (crc16 bs), highByte (crc16 bs)]) = 0#16

/-- R92 (d), derived by the spec: for a fixed byte `UPD` is a bijection of the accumulator; and for a fixed accumulator it is
one-to-one in the byte (R89). -/
def Obligations.UpdIsInvertible : Prop :=
  (∀ b : Byte, Function.Bijective fun c : Word => upd c b) ∧
  (∀ c : Word, Function.Injective fun b : Byte => upd c b)

/-- R89, the sharper form the spec derives there: sequences of one byte, and sequences of two bytes, with the same checksum are the same; so the
order of two different bytes always shows. -/
def Obligations.ShortChecksumsAreDistinct : Prop :=
  (∀ a b : Byte, crc16 [a] = crc16 [b] → a = b) ∧
  (∀ a b c d : Byte, crc16 [a, b] = crc16 [c, d] → a = c ∧ b = d) ∧
  (∀ a b : Byte, a ≠ b → crc16 [a, b] ≠ crc16 [b, a])

/-! ### The commands -/

/-- R100: `CRC16 len` completes in `IDLE` whenever every input cell holds a byte, and this is its next
state; everything the statement does not name is as before, the whole of `BUF` included. -/
def Obligations.Crc16CommandResult : Prop :=
  ∀ (s : State) (n : Word) (bs : List Byte), s.phase = .idle → InputIs s n.toNat bs →
    exec (.crc16 n) s =
      .next { s with crc := crc16 bs, done := true, phase := .idle, idx := n, op := 0#1, len := n }

/-- R101: `APPEND_CRC16 len` completes in `IDLE` whenever every input cell holds a byte and the two cells
after them exist. The checksum is that of the original bytes, its low byte first; every other cell is as
before. That it is written in place and that `crc` holds it too are the spec's own choices (D11, D19). -/
def Obligations.AppendCommandResult : Prop :=
  ∀ (s : State) (n : Word) (bs : List Byte), s.phase = .idle → InputIs s n.toNat bs → HasRoom s n →
    ∃ t, exec (.appendCrc16 n) s = .next t ∧
      t.crc = crc16 bs ∧ t.done = true ∧ t.phase = .idle ∧ t.idx = n ∧ t.op = 1#1 ∧ t.len = n ∧
      HoldsByte t n.toNat (lowByte (crc16 bs)) ∧ HoldsByte t (n.toNat + 1) (highByte (crc16 bs)) ∧
      (∀ a, a ≠ n.toNat → a ≠ n.toNat + 1 →
        t.buf.get? a = s.buf.get? a ∧ (a ∈ t.void ↔ a ∈ s.void)) ∧
      SameSurroundings s t

/-- The frame of `CRC16`, from every state: whatever next state it answers, no cell of `BUF` has changed,
nor which cells exist or hold a value, nor the host's side; and with `phase != IDLE` nothing at all. -/
def Obligations.Crc16Frame : Prop :=
  ∀ (s t : State) (n : Word), exec (.crc16 n) s = .next t →
    (∀ a, t.buf.get? a = s.buf.get? a) ∧ t.buf = s.buf ∧ t.void = s.void ∧ SameSurroundings s t ∧
      (s.phase ≠ .idle → t = s)

/-- The frame of `APPEND_CRC16`, from every state: only the two cells it stores to can change, the indices
its meaning computes from `len`; and with `phase != IDLE` nothing at all. -/
def Obligations.AppendFrame : Prop :=
  ∀ (s t : State) (n : Word), exec (.appendCrc16 n) s = .next t →
    (∀ a, a ≠ (lowIndex n).toNat → a ≠ (highIndex n).toNat →
      t.buf.get? a = s.buf.get? a ∧ (a ∈ t.void ↔ a ∈ s.void)) ∧
    SameSurroundings s t ∧ (s.phase ≠ .idle → t = s)

/-- R55: no command changes an input cell, and `CRC16` changes no cell at all. -/
def Obligations.InputNotMutated : Prop :=
  ∀ (s t : State) (i : Instr), exec i s = .next t →
    (∀ a, a < i.len.toNat → t.buf.get? a = s.buf.get? a) ∧
    (i.op = 0#1 → ∀ a, t.buf.get? a = s.buf.get? a)

/-- R45, R106: the two stores of an append are to `len` and `len + 1`, with no wrap: for `len = 65535`
they are 65535 and 65536. -/
def Obligations.AppendIndicesDoNotWrap : Prop :=
  (∀ n : Word, (lowIndex n).toNat = n.toNat ∧ (highIndex n).toNat = n.toNat + 1) ∧
    (lowIndex 65535#16).toNat = 65535 ∧ (highIndex 65535#16).toNat = 65536

/-- R108: after an append the first `len` cells are as they were, the length of the output is `len + 2`,
and its last two bytes, read as little-endian, are the checksum of the first `len`. -/
def Obligations.AppendedSequence : Prop :=
  ∀ (s : State) (n : Word) (bs : List Byte), s.phase = .idle → InputIs s n.toNat bs → HasRoom s n →
    ∃ (t : State) (lo hi : Byte), exec (.appendCrc16 n) s = .next t ∧
      InputIs t (n.toNat + 2) (bs ++ [lo, hi]) ∧ lo.toNat + 256 * hi.toNat = (crc16 bs).toNat

/-- R35, R122 (logs 6, 7): in `IDLE` a command stops with a fault exactly when an input cell holds no byte or, for
`APPEND_CRC16`, a cell it writes does not exist (R144). With its input whole, it stops for that reason,
by name. -/
def Obligations.CommandStopsOnlyOnMissingCells : Prop :=
  ∀ (s : State) (n : Word), s.phase = .idle →
    ((∃ f, exec (.crc16 n) s = .fault f) ↔ ∃ i, i < n.toNat ∧ ¬ ∃ b, HoldsByte s i b) ∧
    ((∃ f, exec (.appendCrc16 n) s = .fault f) ↔
      (∃ i, i < n.toNat ∧ ¬ ∃ b, HoldsByte s i b) ∨ ¬ HasRoom s n) ∧
    (exec (.appendCrc16 n) s = .fault .noRoomForChecksum ↔
      (∀ i, i < n.toNat → ∃ b, HoldsByte s i b) ∧ ¬ HasRoom s n) ∧
    (∀ i r, exec i s ≠ .refused r)

/-- R31: the outcome of a call is a function of the command and of the input bytes, and of nothing else:
two states that agree on those end with the same registers, whatever else they held. -/
def Obligations.OutcomeDependsOnlyOnInput : Prop :=
  ∀ (s s' : State) (i : Instr) (bs : List Byte), s.phase = .idle → s'.phase = .idle →
    InputIs s i.len.toNat bs → InputIs s' i.len.toNat bs →
    (i.op = 1#1 → HasRoom s i.len ∧ HasRoom s' i.len) →
    ∃ t t', exec i s = .next t ∧ exec i s' = .next t' ∧ SameRegisters t t' ∧
      (i.op = 1#1 → t.buf.get? i.len.toNat = t'.buf.get? i.len.toNat ∧
        t.buf.get? (i.len.toNat + 1) = t'.buf.get? (i.len.toNat + 1))

/-- R92 (c) on the machine, R52: a later call sees the appended bytes as ordinary data, and the checksum
over input and appended bytes is zero. -/
def Obligations.ChecksumOfAppendedBufferIsZero : Prop :=
  ∀ (s t : State) (n : Word), s.phase = .idle → n.toNat + 2 ≤ 65535 →
    exec (.appendCrc16 n) s = .next t →
    ∃ u, exec (.crc16 (n + 2#16)) t = .next u ∧ u.crc = 0#16 ∧ u.done = true

/-! ### The small steps -/

/-- R102 (a step of the spec's own, D5), with log 8: `START` with `phase = IDLE` latches the command, sets
`crc = 0xFFFF`, `idx = 0` and `done = 0`, and enters `RUN`, in one step. Nothing else changes. With
`phase != IDLE` it is not taken; that the step is then the block's own is what log 8 adds. -/
def Obligations.StartLatchesCommand : Prop :=
  ∀ (s : State) (o : OpBit) (n : Word) (ms : List HostMove), s.host = .start (o ++ n) :: ms →
    (s.phase = .idle → step s =
      .next { s with
        op := o, len := n, crc := 0xFFFF#16, idx := 0#16, done := false, phase := .run, host := ms }) ∧
    (s.phase ≠ .idle → step s = blockStep s)

/-- R103 (D5): `BYTE`, in `RUN` with `idx < len`, consumes the byte at `idx`; nothing else changes; if `crc` was
the checksum of the bytes before `idx`, it is that of those before the new `idx`, which has not
wrapped. -/
def Obligations.ByteConsumesNextCell : Prop :=
  ∀ (s : State) (b : Byte), s.phase = .run → s.idx < s.len → HoldsByte s s.idx.toNat b →
    blockStep s = .next { s with crc := upd s.crc b, idx := s.idx + 1#16 } ∧
    (s.idx + 1#16).toNat = s.idx.toNat + 1 ∧
    (ConsumedPrefix s → ConsumedPrefix { s with crc := upd s.crc b, idx := s.idx + 1#16 })

/-- R104 (D5): `END`, in `RUN` with `idx = len`: `CRC16` is complete, `APPEND_CRC16` goes on to write. Nothing
else changes. -/
def Obligations.EndChoosesByOperation : Prop :=
  ∀ s : State, s.phase = .run → s.idx = s.len →
    (s.op = 0#1 → blockStep s = .next { s with phase := .idle, done := true }) ∧
    (s.op = 1#1 → blockStep s = .next { s with phase := .appLo })

/-- R105 (D5, D12): `APPLO` writes cell `len` with the low byte of the checksum and goes on to `APP_HI`; no register
but `phase` and no other cell changes. -/
def Obligations.AppLoWritesLowByte : Prop :=
  ∀ s : State, s.phase = .appLo → s.len.toNat < s.cells →
    ∃ t, blockStep s = .next t ∧ t.phase = .appHi ∧
      HoldsByte t s.len.toNat (s.crc.extractLsb' 0 8) ∧
      (∀ a, a ≠ s.len.toNat → t.buf.get? a = s.buf.get? a ∧ (a ∈ t.void ↔ a ∈ s.void)) ∧
      t.crc = s.crc ∧ t.len = s.len ∧ t.op = s.op ∧ t.idx = s.idx ∧ t.done = s.done ∧
      SameSurroundings s t

/-- R106 (D5, D12): `APPHI` writes cell `len + 1`, which does not wrap, with the high byte of the checksum and
completes the call; no other register and no other cell changes. -/
def Obligations.AppHiWritesHighByte : Prop :=
  ∀ s : State, s.phase = .appHi → s.len.toNat + 1 < s.cells →
    ∃ t, blockStep s = .next t ∧ t.phase = .idle ∧ t.done = true ∧
      HoldsByte t (s.len.toNat + 1) (s.crc.extractLsb' 8 8) ∧
      (∀ a, a ≠ s.len.toNat + 1 → t.buf.get? a = s.buf.get? a ∧ (a ∈ t.void ↔ a ∈ s.void)) ∧
      t.crc = s.crc ∧ t.len = s.len ∧ t.op = s.op ∧ t.idx = s.idx ∧ SameSurroundings s t

/-- R35, R122 (log 6): a `BYTE` whose cell holds no value or does not exist stops by name; R144 (log 7):
`APPLO` and `APPHI` without their cell are stuck: nothing changes. -/
def Obligations.BlockStopsOnMissingCells : Prop :=
  ∀ s : State,
    (s.phase = .run → s.idx < s.len → s.cells ≤ s.idx.toNat →
      blockStep s = .fault .noSuchCell) ∧
    (s.phase = .run → s.idx < s.len → s.idx.toNat < s.cells → (¬ ∃ b, HoldsByte s s.idx.toNat b) →
      blockStep s = .fault .cellHoldsNoValue) ∧
    (s.phase = .appLo → s.cells ≤ s.len.toNat → blockStep s = .next s) ∧
    (s.phase = .appHi → s.cells ≤ s.len.toNat + 1 → blockStep s = .next s)

/-- R144 (log 7): an append without its two cells, taken in small steps with no further move of the host, never
reaches `done = 1`, however long it runs, and the input cells stay as they were. -/
def Obligations.AppendWithoutRoomNeverDone : Prop :=
  ∀ (s t : State) (n : Word) (k : Nat), ¬ HasRoom s n →
    runSteps k (latchCommand 1#1 n { s with host := [] }) = .next t →
    t.done = false ∧ t.phase ≠ .idle ∧ ∀ a, a < n.toNat → t.buf.get? a = s.buf.get? a

/-! ### The host's reads and writes -/

/-- R107: `GET` with `done = 1` answers `crc` and changes no state of the block; so a second `GET` answers
the same. -/
def Obligations.GetAnswersResult : Prop :=
  ∀ (s : State) (ms : List HostMove), s.host = .get :: ms → s.done = true →
    step s = .next { s with host := ms, reply := some (.result s.crc) } ∧
    (∀ t ms', step s = .next t → ms = .get :: ms' →
      step t = .next { s with host := ms', reply := some (.result s.crc) })

/-- The model's choice of "any value" for a read the spec gives none (R32, U6; log 4): `GET` with
`done = 0` answers the free value of that number, of which nothing is known (never `crc`, nor any fixed
number), counts it, and changes nothing of the block. -/
def Obligations.GetWithoutResultIsFree : Prop :=
  ∀ (s : State) (ms : List HostMove), s.host = .get :: ms → s.done = false →
    step s = .next { s with
      host := ms, reply := some (.result (Config.freeWord s.draws)), draws := s.draws + 1 }

/-- R143, R47, R140, with the model's choice of "any value" (U7, U12; logs 3, 4): a host read of a cell that
exists, if the cell is one of the two an append in progress writes, or one whose append a `RESET` cut
short, answers the free value of that number, whether or not a byte is listed there, and counts it; a read
of any other cell that holds a byte answers that byte. Nothing else changes. -/
def Obligations.HostReadAnswersCell : Prop :=
  ∀ (s : State) (a : Index), a.toNat < s.cells →
    (s.phase ≠ .idle ∧ s.op = 1#1 ∧ (a.toNat = s.len.toNat ∨ a.toNat = s.len.toNat + 1) →
      hostRead a s =
        .next { s with reply := some (.cell (Config.freeByte s.draws)), draws := s.draws + 1 }) ∧
    (a.toNat ∈ s.void →
      hostRead a s =
        .next { s with reply := some (.cell (Config.freeByte s.draws)), draws := s.draws + 1 }) ∧
    (∀ b, HoldsByte s a.toNat b →
      ¬ (s.phase ≠ .idle ∧ s.op = 1#1 ∧ (a.toNat = s.len.toNat ∨ a.toNat = s.len.toNat + 1)) →
      hostRead a s = .next { s with reply := some (.cell b) })

/-- R142, U11; that the model admits the move is its choice (log 9): a host write of a cell, also of an input cell during a call, changes that cell alone; a `BYTE`
that follows uses the value the cell then holds. -/
def Obligations.HostWriteSeenByByte : Prop :=
  ∀ (s : State) (a : Index) (b : Byte), a.toNat < s.cells →
    ¬ (s.phase ≠ .idle ∧ s.op = 1#1 ∧ (a.toNat = s.len.toNat ∨ a.toNat = s.len.toNat + 1)) →
    ∃ t, hostWrite a b s = .next t ∧ HoldsByte t a.toNat b ∧
      (∀ x, x ≠ a.toNat → t.buf.get? x = s.buf.get? x ∧ (x ∈ t.void ↔ x ∈ s.void)) ∧
      SameRegisters t s ∧ SameSurroundings s t ∧
      (s.phase = .run → s.idx < s.len → s.idx.toNat = a.toNat →
        blockStep t = .next { t with crc := upd s.crc b, idx := s.idx + 1#16 })

/-- The model's stops of the host's reads and writes (logs 4, 6, 9), each by name with its condition, and no
others. A read faults `noSuchCell` where the cell does not exist, and `cellHoldsNoValue` where it exists,
nothing has written it (R35), and it is none of the cells that answer a free value; it has no other fault
and is never refused. A write faults `noSuchCell` where the cell does not exist, and is refused
`hostWritesOutputDuringCall` where it is one of the two an append in progress writes, which R49 and R114
forbid; it has no other fault and no other refusal. -/
def Obligations.HostMovesStopByName : Prop :=
  ∀ (s : State) (a : Index) (b : Byte),
    (∀ f, hostRead a s = .fault f ↔
      (f = .noSuchCell ∧ s.cells ≤ a.toNat) ∨
      (f = .cellHoldsNoValue ∧ a.toNat < s.cells ∧ s.buf.get? a.toNat = none ∧ a.toNat ∉ s.void ∧
        ¬ (s.phase ≠ .idle ∧ s.op = 1#1 ∧ (a.toNat = s.len.toNat ∨ a.toNat = s.len.toNat + 1)))) ∧
    (∀ r, hostRead a s ≠ .refused r) ∧
    (∀ f, hostWrite a b s = .fault f ↔ f = .noSuchCell ∧ s.cells ≤ a.toNat) ∧
    (∀ r, hostWrite a b s = .refused r ↔
      r = .hostWritesOutputDuringCall ∧ a.toNat < s.cells ∧ s.phase ≠ .idle ∧ s.op = 1#1 ∧
        (a.toNat = s.len.toNat ∨ a.toNat = s.len.toNat + 1))

/-- R43: a read after a write. The written cell reads as what was written; every other cell reads, or
stops, as before. -/
def Obligations.ReadAfterWrite : Prop :=
  ∀ (s : State) (a x : Nat) (v : Byte), a < s.cells →
    memRead (memWrite s a v) a = .ok v ∧ (x ≠ a → memRead (memWrite s a v) x = memRead s x)

/-! ### Whole-machine rules -/

/-- Every step keeps the machine's invariant: `BUF` in canonical form and inside the cells that exist;
`idx` never beyond `len` and equal to it outside `RUN` (R26); the append phases only with `op = 1` (R105);
`done = 1` only in `IDLE` (R28, R151). -/
def Obligations.InvariantKeptByEveryStep : Prop :=
  ∀ s t : State, Inv s → step s = .next t → Inv t

/-- R90, R103: every step but a host write below `idx` keeps the accumulator the checksum of the bytes
consumed. -/
def Obligations.PrefixChecksumKeptByEveryStep : Prop :=
  ∀ s t : State, Inv s → ConsumedPrefix s →
    (∀ a b ms, s.host = .write a b :: ms → s.idx.toNat ≤ a.toNat) →
    step s = .next t → ConsumedPrefix t

/-- R110: the small steps of a `CRC16` call, `START`, `len` times `BYTE`, `END`, come to what the whole
call comes to: the same next state, or the same stop. -/
def Obligations.SmallStepsMakeCrc16Call : Prop :=
  ∀ (s : State) (n : Word), s.phase = .idle →
    runSteps (n.toNat + 2) { s with host := [.start (encode (.crc16 n))] } =
      exec (.crc16 n) { s with host := [] }

/-- R110: the small steps of an `APPEND_CRC16` call whose two cells exist, `START`, `len` times `BYTE`,
`END`, `APPLO`, `APPHI`, come to what the whole call comes to. -/
def Obligations.SmallStepsMakeAppendCall : Prop :=
  ∀ (s : State) (n : Word), s.phase = .idle → HasRoom s n →
    runSteps (n.toNat + 4) { s with host := [.start (encode (.appendCrc16 n))] } =
      exec (.appendCrc16 n) { s with host := [] }

/-- R110: every call in progress ends, given the host's duties: left to itself, with the rest of its input
and its two cells there, the block reaches `done = 1` within the steps that remain. -/
def Obligations.EveryCallEnds : Prop :=
  ∀ s : State, Inv s → s.phase ≠ .idle → s.host = [] →
    (∀ i, s.idx.toNat ≤ i → i < s.len.toNat → ∃ b, HoldsByte s i b) →
    (s.op = 1#1 → HasRoom s s.len) →
    ∃ k t, k ≤ s.len.toNat - s.idx.toNat + 3 ∧ runSteps k s = .next t ∧ t.done = true ∧
      t.phase = .idle

/-- R22: a result, once produced, does not change until the next command or reset. -/
def Obligations.ResultStableUntilNextStart : Prop :=
  ∀ s t : State, Inv s → s.done = true → step s = .next t →
    (∀ w ms, s.host ≠ .start w :: ms ∧ s.host ≠ .call w :: ms) → (∀ ms, s.host ≠ .reset :: ms) →
    t.crc = s.crc ∧ t.done = true ∧ t.phase = .idle

/-- R28: `done` is set only by the step that completes a call: `END` with `op = 0`, `APPHI`, or a whole
call taken as one step. It is cleared only by `START` and by `RESET`. -/
def Obligations.DoneWrittenOnlyByCalls : Prop :=
  ∀ s t : State, step s = .next t →
    (s.done = false → t.done = true →
      (s.phase = .run ∧ s.idx = s.len ∧ s.op = 0#1) ∨ s.phase = .appHi ∨
        (s.phase = .idle ∧ ∃ w ms, s.host = .call w :: ms)) ∧
    (s.done = true → t.done = false →
      (s.phase = .idle ∧ ∃ w ms, s.host = .start w :: ms) ∨ ∃ ms, s.host = .reset :: ms)

/-- R23, R55: no step of the block writes an input cell; a cell of `BUF` changes only by the host's write
of it, or at the two indices an append writes. -/
def Obligations.CellsChangedOnlyByTheirWriters : Prop :=
  ∀ (s t : State) (a : Nat), step s = .next t → t.buf.get? a ≠ s.buf.get? a →
    (∃ i b ms, s.host = .write i b :: ms ∧ i.toNat = a) ∨
    (s.phase = .appLo ∧ a = s.len.toNat) ∨ (s.phase = .appHi ∧ a = s.len.toNat + 1) ∨
    (s.phase = .idle ∧ ∃ n ms, s.host = .call (encode (.appendCrc16 n)) :: ms ∧
      (a = n.toNat ∨ a = n.toNat + 1))

/-- The command latches are written only by a command or a reset (R25). That no step changes which cells
exist is the model's choice (log 2). -/
def Obligations.LatchesConstantDuringCall : Prop :=
  ∀ s t : State, step s = .next t →
    t.cells = s.cells ∧
    (s.phase ≠ .idle → (∀ ms, s.host ≠ .reset :: ms) → t.len = s.len ∧ t.op = s.op)
end

