-- ==== Sys2Proof/Laws/State.lean ====
section
/-! SUPPORT. What each update of the state does to each field: one lemma a field, true by definition, so
that no later proof unfolds a record update. -/

namespace Sys2Proof.Machine

variable (s : State)

/-! ### memWrite -/

@[simp] theorem memWrite_crc (a : Nat) (v : Byte) : (memWrite s a v).crc = s.crc := rfl
@[simp] theorem memWrite_buf (a : Nat) (v : Byte) : (memWrite s a v).buf = s.buf.set a v := rfl
@[simp] theorem memWrite_len (a : Nat) (v : Byte) : (memWrite s a v).len = s.len := rfl
@[simp] theorem memWrite_op (a : Nat) (v : Byte) : (memWrite s a v).op = s.op := rfl
@[simp] theorem memWrite_idx (a : Nat) (v : Byte) : (memWrite s a v).idx = s.idx := rfl
@[simp] theorem memWrite_phase (a : Nat) (v : Byte) : (memWrite s a v).phase = s.phase := rfl
@[simp] theorem memWrite_done (a : Nat) (v : Byte) : (memWrite s a v).done = s.done := rfl
@[simp] theorem memWrite_cells (a : Nat) (v : Byte) : (memWrite s a v).cells = s.cells := rfl
@[simp] theorem memWrite_void (a : Nat) (v : Byte) : (memWrite s a v).void = clearVoid s.void a := rfl
@[simp] theorem memWrite_host (a : Nat) (v : Byte) : (memWrite s a v).host = s.host := rfl
@[simp] theorem memWrite_reply (a : Nat) (v : Byte) : (memWrite s a v).reply = s.reply := rfl
@[simp] theorem memWrite_draws (a : Nat) (v : Byte) : (memWrite s a v).draws = s.draws := rfl

/-! ### latchCommand -/

@[simp] theorem latchCommand_crc (o : OpBit) (n : Word) : (latchCommand o n s).crc = crcInit := rfl
@[simp] theorem latchCommand_buf (o : OpBit) (n : Word) : (latchCommand o n s).buf = s.buf := rfl
@[simp] theorem latchCommand_len (o : OpBit) (n : Word) : (latchCommand o n s).len = n := rfl
@[simp] theorem latchCommand_op (o : OpBit) (n : Word) : (latchCommand o n s).op = o := rfl
@[simp] theorem latchCommand_idx (o : OpBit) (n : Word) : (latchCommand o n s).idx = 0#16 := rfl
@[simp] theorem latchCommand_phase (o : OpBit) (n : Word) : (latchCommand o n s).phase = .run := rfl
@[simp] theorem latchCommand_done (o : OpBit) (n : Word) : (latchCommand o n s).done = false := rfl
@[simp] theorem latchCommand_cells (o : OpBit) (n : Word) : (latchCommand o n s).cells = s.cells := rfl
@[simp] theorem latchCommand_void (o : OpBit) (n : Word) : (latchCommand o n s).void = s.void := rfl
@[simp] theorem latchCommand_host (o : OpBit) (n : Word) : (latchCommand o n s).host = s.host := rfl
@[simp] theorem latchCommand_reply (o : OpBit) (n : Word) : (latchCommand o n s).reply = s.reply := rfl
@[simp] theorem latchCommand_draws (o : OpBit) (n : Word) : (latchCommand o n s).draws = s.draws := rfl

/-! ### consumeByte -/

@[simp] theorem consumeByte_crc (b : Byte) : (consumeByte b s).crc = upd s.crc b := rfl
@[simp] theorem consumeByte_buf (b : Byte) : (consumeByte b s).buf = s.buf := rfl
@[simp] theorem consumeByte_len (b : Byte) : (consumeByte b s).len = s.len := rfl
@[simp] theorem consumeByte_op (b : Byte) : (consumeByte b s).op = s.op := rfl
@[simp] theorem consumeByte_idx (b : Byte) : (consumeByte b s).idx = s.idx + 1#16 := rfl
@[simp] theorem consumeByte_phase (b : Byte) : (consumeByte b s).phase = s.phase := rfl
@[simp] theorem consumeByte_done (b : Byte) : (consumeByte b s).done = s.done := rfl
@[simp] theorem consumeByte_cells (b : Byte) : (consumeByte b s).cells = s.cells := rfl
@[simp] theorem consumeByte_void (b : Byte) : (consumeByte b s).void = s.void := rfl
@[simp] theorem consumeByte_host (b : Byte) : (consumeByte b s).host = s.host := rfl
@[simp] theorem consumeByte_reply (b : Byte) : (consumeByte b s).reply = s.reply := rfl
@[simp] theorem consumeByte_draws (b : Byte) : (consumeByte b s).draws = s.draws := rfl

/-! ### setPhase -/

@[simp] theorem setPhase_crc (p : Phase) : (setPhase p s).crc = s.crc := rfl
@[simp] theorem setPhase_buf (p : Phase) : (setPhase p s).buf = s.buf := rfl
@[simp] theorem setPhase_len (p : Phase) : (setPhase p s).len = s.len := rfl
@[simp] theorem setPhase_op (p : Phase) : (setPhase p s).op = s.op := rfl
@[simp] theorem setPhase_idx (p : Phase) : (setPhase p s).idx = s.idx := rfl
@[simp] theorem setPhase_phase (p : Phase) : (setPhase p s).phase = p := rfl
@[simp] theorem setPhase_done (p : Phase) : (setPhase p s).done = s.done := rfl
@[simp] theorem setPhase_cells (p : Phase) : (setPhase p s).cells = s.cells := rfl
@[simp] theorem setPhase_void (p : Phase) : (setPhase p s).void = s.void := rfl
@[simp] theorem setPhase_host (p : Phase) : (setPhase p s).host = s.host := rfl
@[simp] theorem setPhase_reply (p : Phase) : (setPhase p s).reply = s.reply := rfl
@[simp] theorem setPhase_draws (p : Phase) : (setPhase p s).draws = s.draws := rfl

/-! ### completeCall -/

@[simp] theorem completeCall_crc : (completeCall s).crc = s.crc := rfl
@[simp] theorem completeCall_buf : (completeCall s).buf = s.buf := rfl
@[simp] theorem completeCall_len : (completeCall s).len = s.len := rfl
@[simp] theorem completeCall_op : (completeCall s).op = s.op := rfl
@[simp] theorem completeCall_idx : (completeCall s).idx = s.idx := rfl
@[simp] theorem completeCall_phase : (completeCall s).phase = .idle := rfl
@[simp] theorem completeCall_done : (completeCall s).done = true := rfl
@[simp] theorem completeCall_cells : (completeCall s).cells = s.cells := rfl
@[simp] theorem completeCall_void : (completeCall s).void = s.void := rfl
@[simp] theorem completeCall_host : (completeCall s).host = s.host := rfl
@[simp] theorem completeCall_reply : (completeCall s).reply = s.reply := rfl
@[simp] theorem completeCall_draws : (completeCall s).draws = s.draws := rfl

/-! ### finishCall -/

@[simp] theorem finishCall_crc (o : OpBit) (n c : Word) : (finishCall o n c s).crc = c := rfl
@[simp] theorem finishCall_buf (o : OpBit) (n c : Word) : (finishCall o n c s).buf = s.buf := rfl
@[simp] theorem finishCall_len (o : OpBit) (n c : Word) : (finishCall o n c s).len = n := rfl
@[simp] theorem finishCall_op (o : OpBit) (n c : Word) : (finishCall o n c s).op = o := rfl
@[simp] theorem finishCall_idx (o : OpBit) (n c : Word) : (finishCall o n c s).idx = n := rfl
@[simp] theorem finishCall_phase (o : OpBit) (n c : Word) : (finishCall o n c s).phase = .idle := rfl
@[simp] theorem finishCall_done (o : OpBit) (n c : Word) : (finishCall o n c s).done = true := rfl
@[simp] theorem finishCall_cells (o : OpBit) (n c : Word) : (finishCall o n c s).cells = s.cells := rfl
@[simp] theorem finishCall_void (o : OpBit) (n c : Word) : (finishCall o n c s).void = s.void := rfl
@[simp] theorem finishCall_host (o : OpBit) (n c : Word) : (finishCall o n c s).host = s.host := rfl
@[simp] theorem finishCall_reply (o : OpBit) (n c : Word) : (finishCall o n c s).reply = s.reply := rfl
@[simp] theorem finishCall_draws (o : OpBit) (n c : Word) : (finishCall o n c s).draws = s.draws := rfl

/-! ### answer -/

@[simp] theorem answer_crc (r : Reply) : (answer r s).crc = s.crc := rfl
@[simp] theorem answer_buf (r : Reply) : (answer r s).buf = s.buf := rfl
@[simp] theorem answer_len (r : Reply) : (answer r s).len = s.len := rfl
@[simp] theorem answer_op (r : Reply) : (answer r s).op = s.op := rfl
@[simp] theorem answer_idx (r : Reply) : (answer r s).idx = s.idx := rfl
@[simp] theorem answer_phase (r : Reply) : (answer r s).phase = s.phase := rfl
@[simp] theorem answer_done (r : Reply) : (answer r s).done = s.done := rfl
@[simp] theorem answer_cells (r : Reply) : (answer r s).cells = s.cells := rfl
@[simp] theorem answer_void (r : Reply) : (answer r s).void = s.void := rfl
@[simp] theorem answer_host (r : Reply) : (answer r s).host = s.host := rfl
@[simp] theorem answer_reply (r : Reply) : (answer r s).reply = some r := rfl
@[simp] theorem answer_draws (r : Reply) : (answer r s).draws = s.draws := rfl

/-! ### drawFree -/

@[simp] theorem drawFree_crc : (drawFree s).crc = s.crc := rfl
@[simp] theorem drawFree_buf : (drawFree s).buf = s.buf := rfl
@[simp] theorem drawFree_len : (drawFree s).len = s.len := rfl
@[simp] theorem drawFree_op : (drawFree s).op = s.op := rfl
@[simp] theorem drawFree_idx : (drawFree s).idx = s.idx := rfl
@[simp] theorem drawFree_phase : (drawFree s).phase = s.phase := rfl
@[simp] theorem drawFree_done : (drawFree s).done = s.done := rfl
@[simp] theorem drawFree_cells : (drawFree s).cells = s.cells := rfl
@[simp] theorem drawFree_void : (drawFree s).void = s.void := rfl
@[simp] theorem drawFree_host : (drawFree s).host = s.host := rfl
@[simp] theorem drawFree_reply : (drawFree s).reply = s.reply := rfl
@[simp] theorem drawFree_draws : (drawFree s).draws = s.draws + 1 := rfl

/-! ### withHost -/

@[simp] theorem withHost_crc (ms : List HostMove) : (withHost ms s).crc = s.crc := rfl
@[simp] theorem withHost_buf (ms : List HostMove) : (withHost ms s).buf = s.buf := rfl
@[simp] theorem withHost_len (ms : List HostMove) : (withHost ms s).len = s.len := rfl
@[simp] theorem withHost_op (ms : List HostMove) : (withHost ms s).op = s.op := rfl
@[simp] theorem withHost_idx (ms : List HostMove) : (withHost ms s).idx = s.idx := rfl
@[simp] theorem withHost_phase (ms : List HostMove) : (withHost ms s).phase = s.phase := rfl
@[simp] theorem withHost_done (ms : List HostMove) : (withHost ms s).done = s.done := rfl
@[simp] theorem withHost_cells (ms : List HostMove) : (withHost ms s).cells = s.cells := rfl
@[simp] theorem withHost_void (ms : List HostMove) : (withHost ms s).void = s.void := rfl
@[simp] theorem withHost_host (ms : List HostMove) : (withHost ms s).host = ms := rfl
@[simp] theorem withHost_reply (ms : List HostMove) : (withHost ms s).reply = s.reply := rfl
@[simp] theorem withHost_draws (ms : List HostMove) : (withHost ms s).draws = s.draws := rfl

/-! ### resetMove -/

@[simp] theorem resetMove_crc : (resetMove s).crc = 0xFFFF#16 := rfl
@[simp] theorem resetMove_buf : (resetMove s).buf = s.buf := rfl
@[simp] theorem resetMove_len : (resetMove s).len = 0#16 := rfl
@[simp] theorem resetMove_op : (resetMove s).op = 0#1 := rfl
@[simp] theorem resetMove_idx : (resetMove s).idx = 0#16 := rfl
@[simp] theorem resetMove_phase : (resetMove s).phase = .idle := rfl
@[simp] theorem resetMove_done : (resetMove s).done = false := rfl
@[simp] theorem resetMove_cells : (resetMove s).cells = s.cells := rfl
@[simp] theorem resetMove_void : (resetMove s).void = voidAfterReset s := rfl
@[simp] theorem resetMove_host : (resetMove s).host = s.host := rfl
@[simp] theorem resetMove_reply : (resetMove s).reply = s.reply := rfl
@[simp] theorem resetMove_draws : (resetMove s).draws = s.draws := rfl

/-! ### appendChecksum -/

@[simp] theorem appendChecksum_crc (n c : Word) : (appendChecksum n c s).crc = s.crc := rfl
@[simp] theorem appendChecksum_buf (n c : Word) : (appendChecksum n c s).buf = (s.buf.set (lowIndex n).toNat (lowByte c)).set (highIndex n).toNat (highByte c) := rfl
@[simp] theorem appendChecksum_len (n c : Word) : (appendChecksum n c s).len = s.len := rfl
@[simp] theorem appendChecksum_op (n c : Word) : (appendChecksum n c s).op = s.op := rfl
@[simp] theorem appendChecksum_idx (n c : Word) : (appendChecksum n c s).idx = s.idx := rfl
@[simp] theorem appendChecksum_phase (n c : Word) : (appendChecksum n c s).phase = s.phase := rfl
@[simp] theorem appendChecksum_done (n c : Word) : (appendChecksum n c s).done = s.done := rfl
@[simp] theorem appendChecksum_cells (n c : Word) : (appendChecksum n c s).cells = s.cells := rfl
@[simp] theorem appendChecksum_void (n c : Word) : (appendChecksum n c s).void = clearVoid (clearVoid s.void (lowIndex n).toNat) (highIndex n).toNat := rfl
@[simp] theorem appendChecksum_host (n c : Word) : (appendChecksum n c s).host = s.host := rfl
@[simp] theorem appendChecksum_reply (n c : Word) : (appendChecksum n c s).reply = s.reply := rfl
@[simp] theorem appendChecksum_draws (n c : Word) : (appendChecksum n c s).draws = s.draws := rfl

end Sys2Proof.Machine
end

