-- ==== Sys2Proof/Laws/Memory.lean ====
section
/-! SUPPORT. The buffer as a list of cells: a read after a write, and the canonical form of the buffer and
of the list of cells with no value. -/

namespace Sys2Proof.Machine

theorem Memory.get?_set_eq (m : Memory) (a : Nat) (v : Byte) : (m.set a v).get? a = some v := by
  induction m with
  | nil => simp [Memory.set, Memory.get?]
  | cons c m ih =>
    obtain ⟨k, b⟩ := c
    simp only [Memory.set]
    split
    · simp [Memory.get?]
    · split
      · simp [Memory.get?]
      · have : k ≠ a := fun h => by simp_all
        simp [Memory.get?, this, ih]

theorem Memory.get?_set_ne (m : Memory) {a x : Nat} (v : Byte) (h : x ≠ a) :
    (m.set a v).get? x = m.get? x := by
  induction m with
  | nil => simp [Memory.set, Memory.get?, Ne.symm h]
  | cons c m ih =>
    obtain ⟨k, b⟩ := c
    simp only [Memory.set]
    split
    · simp [Memory.get?, Ne.symm h]
    · split
      · rename_i hk
        subst hk
        simp [Memory.get?, Ne.symm h]
      · simp [Memory.get?, ih]

theorem Memory.get?_set (m : Memory) (a x : Nat) (v : Byte) :
    (m.set a v).get? x = if x = a then some v else m.get? x := by
  by_cases h : x = a
  · subst h; simp [Memory.get?_set_eq]
  · simp [h, Memory.get?_set_ne]

/-- A cell of a written buffer is the written one or one that was there. -/
theorem Memory.mem_set {m : Memory} {a : Nat} {v : Byte} {c : Host.Cell} (h : c ∈ m.set a v) :
    c = (a, v) ∨ c ∈ m := by
  induction m with
  | nil => simpa [Memory.set] using h
  | cons d m ih =>
    obtain ⟨k, b⟩ := d
    simp only [Memory.set] at h
    split at h
    · simpa using h
    · split at h
      · rcases List.mem_cons.1 h with h | h
        · exact .inl h
        · exact .inr (List.mem_cons_of_mem _ h)
      · rcases List.mem_cons.1 h with h | h
        · exact .inr (h ▸ List.mem_cons_self)
        · exact (ih h).imp_right (List.mem_cons_of_mem _)

theorem Memory.set_wf {m : Memory} (h : m.wf) (a : Nat) (v : Byte) : (m.set a v).wf := by
  induction m with
  | nil => simp [Memory.set, Memory.wf]
  | cons c m ih =>
    obtain ⟨k, b⟩ := c
    obtain ⟨h1, h2⟩ := List.pairwise_cons.1 h
    simp only [Memory.set]
    split
    · rename_i hlt
      refine List.pairwise_cons.2 ⟨fun d hd => ?_, h⟩
      rcases List.mem_cons.1 hd with rfl | hd
      · exact hlt
      · exact Nat.lt_trans hlt (h1 d hd)
    · split
      · rename_i hk
        subst hk
        exact List.pairwise_cons.2 ⟨h1, h2⟩
      · refine List.pairwise_cons.2 ⟨fun d hd => ?_, ih h2⟩
        rcases Memory.mem_set hd with rfl | hd
        · show k < a; omega
        · exact h1 d hd

@[simp] theorem mem_clearVoid (v : List Nat) (a x : Nat) :
    x ∈ clearVoid v a ↔ x ∈ v ∧ x ≠ a := by simp [clearVoid]

@[simp] theorem mem_markVoid (v : List Nat) (a x : Nat) :
    x ∈ markVoid v a ↔ x = a ∨ x ∈ v := by
  induction v with
  | nil => simp [markVoid]
  | cons k v ih =>
    simp only [markVoid]
    split
    · simp
    · split
      · rename_i hk; subst hk; simp
      · simp only [List.mem_cons, ih]; tauto

theorem clearVoid_sorted {v : List Nat} (h : v.Pairwise (· < ·)) (a : Nat) :
    (clearVoid v a).Pairwise (· < ·) := h.filter _

theorem markVoid_sorted {v : List Nat} (h : v.Pairwise (· < ·)) (a : Nat) :
    (markVoid v a).Pairwise (· < ·) := by
  induction v with
  | nil => simp [markVoid]
  | cons k v ih =>
    obtain ⟨h1, h2⟩ := List.pairwise_cons.1 h
    simp only [markVoid]
    split
    · rename_i hlt
      refine List.pairwise_cons.2 ⟨fun d hd => ?_, h⟩
      rcases List.mem_cons.1 hd with rfl | hd
      · exact hlt
      · exact Nat.lt_trans hlt (h1 d hd)
    · split
      · exact h
      · refine List.pairwise_cons.2 ⟨fun d hd => ?_, ih h2⟩
        rcases (mem_markVoid _ _ _).1 hd with rfl | hd
        · omega
        · exact h1 d hd

/-- A buffer and a list of cells with no value that are both in canonical form stay so in a write. -/
theorem memWrite_wf {s : State} (hb : s.buf.wf) (hv : s.void.Pairwise (· < ·)) (a : Nat) (v : Byte) :
    (memWrite s a v).buf.wf ∧ (memWrite s a v).void.Pairwise (· < ·) :=
  ⟨Memory.set_wf hb a v, clearVoid_sorted hv a⟩

theorem reset_memory_wf : State.reset.buf.wf := by decide

end Sys2Proof.Machine
end

