-- ==== Sys2Proof/Laws/Ops.lean ====
section
/-! SUPPORT. One specification lemma for each shared operation: what it answers, and when. Later proofs
cite these and do not unfold the operation. -/

namespace Sys2Proof.Machine

/-! ### Indices -/

@[simp] theorem lowIndex_toNat (n : Word) : (lowIndex n).toNat = n.toNat := by
  have := n.isLt
  simp only [lowIndex, zext17, BitVec.toNat_setWidth]
  omega

@[simp] theorem byteIndex_toNat (s : State) : (byteIndex s).toNat = s.idx.toNat :=
  lowIndex_toNat s.idx

@[simp] theorem highIndex_toNat (n : Word) : (highIndex n).toNat = n.toNat + 1 := by
  have := n.isLt
  simp only [highIndex, zext17, BitVec.toNat_add, BitVec.toNat_setWidth, BitVec.toNat_ofNat]
  omega

/-! ### Reading -/

@[simp] theorem cellExists_iff (s : State) (a : Nat) : cellExists s a = true ↔ a < s.cells := by
  simp [cellExists]

/-- `MemRead` answers a byte exactly when the cell holds it. -/
theorem memRead_ok_iff {s : State} {a : Nat} {b : Byte} :
    memRead s a = .ok b ↔ HoldsByte s a b := by
  unfold memRead HoldsByte
  by_cases h1 : a < s.cells <;> by_cases h2 : a ∈ s.void <;> cases h3 : s.buf.get? a <;>
    simp [cellExists, h1, h2]

/-- `MemRead` stops exactly when the cell holds no byte. -/
theorem memRead_error_iff {s : State} {a : Nat} :
    (∃ f, memRead s a = .error f) ↔ ¬ ∃ b, HoldsByte s a b := by
  cases h : memRead s a with
  | ok b => exact ⟨fun ⟨_, hf⟩ => (nomatch hf), fun hn => absurd ⟨b, memRead_ok_iff.1 h⟩ hn⟩
  | error f =>
    refine ⟨fun _ ⟨b, hb⟩ => ?_, fun _ => ⟨f, rfl⟩⟩
    simp [memRead_ok_iff.2 hb] at h

/-- The two reasons a read stops for. -/
theorem memRead_error {s : State} {a : Nat} {f : Fault} (h : memRead s a = .error f) :
    f = .noSuchCell ∧ ¬ a < s.cells ∨ f = .cellHoldsNoValue ∧ a < s.cells := by
  unfold memRead at h
  by_cases h1 : a < s.cells
  · right
    simp only [cellExists, h1, decide_true, if_true] at h
    split at h
    · simp_all
    · split at h <;> simp_all
  · left
    simp_all [cellExists]

/-- Reading a range answers its bytes exactly when every cell holds its own. -/
theorem readCells_ok_iff {s : State} {i n : Nat} {bs : List Byte} :
    readCells s i n = .ok bs ↔
      bs.length = n ∧ ∀ k, k < n → ∃ b, bs[k]? = some b ∧ HoldsByte s (i + k) b := by
  induction n generalizing i bs with
  | zero => cases bs <;> simp [readCells]
  | succ n ih =>
    simp only [readCells]
    constructor
    · intro h
      split at h
      · cases h
      · rename_i b hb
        split at h
        · cases h
        · rename_i cs hcs
          cases h
          obtain ⟨hl, hk⟩ := ih.1 hcs
          refine ⟨by simp [hl], fun k hkn => ?_⟩
          cases k with
          | zero => exact ⟨b, by simp, by simpa using memRead_ok_iff.1 hb⟩
          | succ k =>
            obtain ⟨c, h1, h2⟩ := hk k (by omega)
            refine ⟨c, by simpa using h1, ?_⟩
            rwa [show i + (k + 1) = i + 1 + k by omega]
    · rintro ⟨hl, hk⟩
      cases bs with
      | nil => simp at hl
      | cons b cs =>
        obtain ⟨b', h1, h2⟩ := hk 0 (by omega)
        cases (by simpa using h1 : b = b')
        rw [memRead_ok_iff.2 (by simpa using h2)]
        have : readCells s (i + 1) n = .ok cs := ih.2 ⟨by simpa using hl, fun k hkn => by
          obtain ⟨c, h3, h4⟩ := hk (k + 1) (by omega)
          refine ⟨c, by simpa using h3, ?_⟩
          rwa [show i + 1 + k = i + (k + 1) by omega]⟩
        simp [this]

/-- The buffer operand of a command is read whole exactly when it is the call's input. -/
theorem inputBytes_ok_iff {s : State} {n : Word} {bs : List Byte} :
    inputBytes n s = .ok bs ↔ InputIs s n.toNat bs := by
  simp only [inputBytes, readCells_ok_iff, InputIs, Nat.zero_add]

/-- Reading a range stops only at a cell of it that cannot be read. -/
theorem readCells_error {s : State} {i n : Nat} {f : Fault} (h : readCells s i n = .error f) :
    ∃ k, k < n ∧ memRead s (i + k) = .error f := by
  induction n generalizing i with
  | zero => simp [readCells] at h
  | succ n ih =>
    simp only [readCells] at h
    split at h
    · rename_i g hg
      cases h
      exact ⟨0, by omega, by simpa using hg⟩
    · split at h
      · rename_i g hg
        cases h
        obtain ⟨k, h1, h2⟩ := ih hg
        exact ⟨k + 1, by omega, by rwa [show i + (k + 1) = i + 1 + k by omega]⟩
      · cases h

@[simp] theorem roomForChecksum_iff (s : State) (n : Word) :
    roomForChecksum n s = true ↔ HasRoom s n := by
  simp only [roomForChecksum, Bool.and_eq_true, cellExists_iff, lowIndex_toNat, highIndex_toNat]
  exact ⟨fun h => h.2, fun h => ⟨by unfold HasRoom at h; omega, h⟩⟩

@[simp] theorem busy_eq_false_iff (s : State) : busy s = false ↔ s.phase = .idle := by
  simp [busy]

@[simp] theorem busy_eq_true_iff (s : State) : busy s = true ↔ s.phase ≠ .idle := by
  simp [busy]

theorem opBit_cases (o : OpBit) : o = 0#1 ∨ o = 1#1 := by revert o; decide

/-- Whether a cell holds a byte depends on the buffer, the cells that exist and those with no value. -/
theorem HoldsByte.congr {s t : State} {a : Nat} {b : Byte} (hc : t.cells = s.cells)
    (hv : a ∈ t.void ↔ a ∈ s.void) (hb : t.buf.get? a = s.buf.get? a) :
    HoldsByte t a b ↔ HoldsByte s a b := by
  simp only [HoldsByte, hc, hv, hb]

/-- A write leaves what every other cell holds. -/
theorem holdsByte_memWrite_ne {s : State} {a x : Nat} {b v : Byte} (h : x ≠ a) :
    HoldsByte (memWrite s a v) x b ↔ HoldsByte s x b :=
  HoldsByte.congr rfl (by simp [h]) (by simp [Memory.get?_set_ne _ _ h])

/-- A written cell that exists holds what was written. -/
theorem holdsByte_memWrite_eq {s : State} {a : Nat} {v : Byte} (h : a < s.cells) :
    HoldsByte (memWrite s a v) a v := ⟨h, by simp, by simp [Memory.get?_set_eq]⟩

/-! ### What each step of the machine can do -/

/-- A whole `CRC16` call that answers a next state. -/
theorem execCrc16_next {n : Word} {s t : State} (h : execCrc16 n s = .next t) :
    s.phase ≠ .idle ∧ t = s ∨
      s.phase = .idle ∧ ∃ bs, InputIs s n.toNat bs ∧ t = finishCall 0#1 n (crc16 bs) s := by
  unfold execCrc16 at h
  split at h
  · rename_i hb
    cases h
    exact .inl ⟨(busy_eq_true_iff s).1 hb, rfl⟩
  · rename_i hb
    split at h
    · cases h
    · rename_i bs hbs
      cases h
      exact .inr ⟨by simpa using hb, bs, inputBytes_ok_iff.1 hbs, rfl⟩

/-- A whole `APPEND_CRC16` call that answers a next state. -/
theorem execAppendCrc16_next {n : Word} {s t : State} (h : execAppendCrc16 n s = .next t) :
    s.phase ≠ .idle ∧ t = s ∨
      s.phase = .idle ∧ HasRoom s n ∧ ∃ bs, InputIs s n.toNat bs ∧
        t = finishCall 1#1 n (crc16 bs) (appendChecksum n (crc16 bs) s) := by
  unfold execAppendCrc16 at h
  split at h
  · rename_i hb
    cases h
    exact .inl ⟨(busy_eq_true_iff s).1 hb, rfl⟩
  · rename_i hb
    split at h
    · cases h
    · rename_i bs hbs
      split at h
      · rename_i hr
        cases h
        exact .inr ⟨by simpa using hb, (roomForChecksum_iff s n).1 hr, bs, inputBytes_ok_iff.1 hbs, rfl⟩
      · cases h

/-- The block's own step that answers a next state: stuck or idle, `BYTE`, `END` twice, `APPLO`,
`APPHI`. -/
theorem blockStep_next {s t : State} (h : blockStep s = .next t) :
    t = s ∨
      (s.phase = .run ∧ s.idx < s.len ∧ ∃ b, HoldsByte s s.idx.toNat b ∧ t = consumeByte b s) ∨
      (s.phase = .run ∧ s.idx = s.len ∧ s.op = 0#1 ∧ t = completeCall s) ∨
      (s.phase = .run ∧ s.idx = s.len ∧ s.op = 1#1 ∧ t = setPhase .appLo s) ∨
      (s.phase = .appLo ∧ s.len.toNat < s.cells ∧
        t = setPhase .appHi (memWrite s s.len.toNat (lowByte s.crc))) ∨
      (s.phase = .appHi ∧ s.len.toNat + 1 < s.cells ∧
        t = completeCall (memWrite s (s.len.toNat + 1) (highByte s.crc))) := by
  unfold blockStep at h
  split at h
  · cases h; exact .inl rfl
  · rename_i hp
    split at h
    · rename_i hlt
      unfold byteStep at h
      split at h
      · cases h
      · rename_i b hb
        cases h
        refine .inr (.inl ⟨hp, hlt, b, ?_, rfl⟩)
        simpa using memRead_ok_iff.1 hb
    · split at h
      · rename_i heq
        unfold endStep at h
        split at h
        · rename_i ho
          cases h
          exact .inr (.inr (.inl ⟨hp, heq, ho, rfl⟩))
        · rename_i ho
          cases h
          exact .inr (.inr (.inr (.inl ⟨hp, heq, (opBit_cases s.op).resolve_left ho, rfl⟩)))
      · cases h; exact .inl rfl
  · rename_i hp
    unfold appLoStep at h
    split at h
    · rename_i hc
      cases h
      refine .inr (.inr (.inr (.inr (.inl ⟨hp, by simpa using hc, ?_⟩))))
      rw [lowIndex_toNat]
    · cases h; exact .inl rfl
  · rename_i hp
    unfold appHiStep at h
    split at h
    · rename_i hc
      cases h
      refine .inr (.inr (.inr (.inr (.inr ⟨hp, by simpa using hc, ?_⟩))))
      rw [highIndex_toNat]
    · cases h; exact .inl rfl

/-- A host read that answers: a free value is drawn, or the cell's byte is given. -/
theorem hostRead_next {a : Index} {s t : State} (h : hostRead a s = .next t) :
    (t = drawFree (answer (.cell (Config.freeByte s.draws)) s) ∧
      (appending s = true ∧ isOutputCell a s = true ∨ a.toNat ∈ s.void)) ∨
      ∃ b, HoldsByte s a.toNat b ∧ t = answer (.cell b) s := by
  unfold hostRead at h
  split at h
  · rename_i hc
    split at h
    · rename_i hf
      cases h
      exact .inl ⟨rfl, by simpa using hf⟩
    · rename_i hf
      split at h
      · rename_i b hb
        cases h
        refine .inr ⟨b, ⟨by simpa using hc, fun hv => hf (by simp [hv]), hb⟩, rfl⟩
      · cases h
  · cases h

/-- A host write that answers. -/
theorem hostWrite_next {a : Index} {b : Byte} {s t : State} (h : hostWrite a b s = .next t) :
    a.toNat < s.cells ∧ ¬ (appending s = true ∧ isOutputCell a s = true) ∧
      t = memWrite s a.toNat b := by
  unfold hostWrite at h
  split at h
  · rename_i hc
    split at h
    · cases h
    · rename_i hf
      cases h
      exact ⟨by simpa using hc, by simpa using hf, rfl⟩
  · cases h

/-- What a step that answers a next state is: a whole call, or the host's next move, or the block's own
step. -/
inductive StepCase (s t : State) : Prop
  | call (cmd : CmdWord) (ms : List HostMove) (hh : s.host = .call cmd :: ms) (hp : s.phase = .idle)
      (he : exec (decode cmd) (withHost ms s) = .next t)
  | block (s' : State) (hs : s' = s ∨ ∃ ms, s.host = .wait :: ms ∧ s' = withHost ms s)
      (he : blockStep s' = .next t)
  | start (cmd : CmdWord) (ms : List HostMove) (hh : s.host = .start cmd :: ms) (hp : s.phase = .idle)
      (ht : t = latchCommand (decode cmd).op (decode cmd).len (withHost ms s))
  | get (ms : List HostMove) (hh : s.host = .get :: ms) (he : getMove (withHost ms s) = .next t)
  | status (ms : List HostMove) (hh : s.host = .status :: ms)
      (ht : t = answer (.status (busy (withHost ms s)) s.done) (withHost ms s))
  | read (a : Index) (ms : List HostMove) (hh : s.host = .read a :: ms)
      (he : hostRead a (withHost ms s) = .next t)
  | write (a : Index) (b : Byte) (ms : List HostMove) (hh : s.host = .write a b :: ms)
      (he : hostWrite a b (withHost ms s) = .next t)
  | reset (ms : List HostMove) (hh : s.host = .reset :: ms) (ht : t = resetMove (withHost ms s))

theorem step_next {s t : State} (h : step s = .next t) : StepCase s t := by
  unfold step nextCall otherStep at h
  cases hh : s.host with
  | nil =>
    simp only [hh] at h
    exact .block s (.inl rfl) h
  | cons m ms =>
    cases m <;> simp only [hh] at h
    case wait => exact .block _ (.inr ⟨ms, hh, rfl⟩) h
    case call cmd =>
      by_cases hb : busy s = true
      · simp only [hb, if_true] at h
        exact .block s (.inl rfl) h
      · simp only [hb] at h
        exact .call cmd ms hh (by simpa using hb) h
    case start cmd =>
      by_cases hb : busy s = true
      · simp only [hb, if_true] at h
        exact .block s (.inl rfl) h
      · simp only [hb, startMove] at h
        cases h
        exact .start cmd ms hh (by simpa using hb) rfl
    case get => exact .get ms hh h
    case status =>
      cases h
      exact .status ms hh rfl
    case read a => exact .read a ms hh h
    case write a b => exact .write a b ms hh h
    case reset =>
      cases h
      exact .reset ms hh rfl

/-- A `GET` that answers: it always does, and changes only what the host got and, where the value is
free, the count of free values. -/
theorem getMove_next {s t : State} (h : getMove s = .next t) :
    (s.done = true ∧ t = answer (.result s.crc) s) ∨
      (s.done = false ∧ t = drawFree (answer (.result (Config.freeWord s.draws)) s)) := by
  unfold getMove at h
  split at h
  · rename_i hd
    cases h
    exact .inl ⟨hd, by simp [crcOut, hd]⟩
  · rename_i hd
    cases h
    exact .inr ⟨by simpa using hd, by simp [crcOut, hd]⟩

end Sys2Proof.Machine
end

