-- ==== Sys2Proof/Laws/CrcCore.lean ====
section
/-! SUPPORT. Small lemmas of the datapath. -/

namespace Sys2Proof.Machine

@[simp] theorem crc16_nil : crc16 [] = crcInit := rfl

theorem crc16_snoc (bs : List Byte) (b : Byte) : crc16 (bs ++ [b]) = upd (crc16 bs) b := by
  simp [crc16, List.foldl_append]

@[simp] theorem bitsteps_zero (c : Word) : bitsteps 0 c = c := rfl

theorem bitsteps_succ (k : Nat) (c : Word) : bitsteps (k + 1) c = bitsteps k (bitstep c) := rfl

end Sys2Proof.Machine
end

