-- ==== Sys2Proof/Laws/Encoding.lean ====
section
/-! SUPPORT. Small lemmas of the encoding. -/

namespace Sys2Proof

/-- Every command is well-formed: its 16-bit field cannot hold a length above 65535 (R62, R65). -/
theorem Instr.wf_true (i : Instr) : i.wf = true := by
  have := i.len.isLt
  exact decide_eq_true (by show i.len.toNat ≤ 65535; omega)

/-- A command word is below 2^17, so its number is accepted. -/
theorem commandWord_toNat (w : CmdWord) : commandWord w.toNat = .ok w := by
  have := w.isLt
  unfold commandWord
  rw [if_pos (by omega)]
  simp

end Sys2Proof
end

