-- ==== Sys2Proof/Laws/PerInstr.lean ====
section
/-! SUPPORT. Statements for every instruction, one lemma a constructor. -/

namespace Sys2Proof.Laws.EncodedFields

/-- Bit 16 of a command's word is its `op`, and bits 15 to 0 are its `len` (R61). -/
def Statement (i : Instr) : Prop := opField (encode i) = i.op ∧ lenField (encode i) = i.len

theorem fields (o : OpBit) (n : Word) : opField (o ++ n) = o ∧ lenField (o ++ n) = n := by
  constructor
  · apply BitVec.eq_of_getLsbD_eq
    intro k hk
    rw [opField, BitVec.getLsbD_extractLsb', BitVec.getLsbD_append]
    simp [hk]
  · apply BitVec.eq_of_getLsbD_eq
    intro k hk
    rw [lenField, BitVec.getLsbD_extractLsb', BitVec.getLsbD_append]
    simp [hk]

theorem crc16 (n : Word) : Statement (.crc16 n) := fields 0#1 n

theorem appendCrc16 (n : Word) : Statement (.appendCrc16 n) := fields 1#1 n

end Sys2Proof.Laws.EncodedFields
end

