-- ==== Sys2Proof/Tests/Slice0.lean ====
section
/-! SUPPORT. Tests: the encodings written out from spec/30_encoding.md and spec/95_test_vectors.md section
5, the vectors of sections 1 to 3 and 6, one step each, and for every statement with hypotheses a
concrete state and operands that meet them. -/

namespace Sys2Proof.Tests
open Machine

/-! ### States to test on -/

/-- The cells from `k` on hold these bytes. -/
def cellsFrom : Nat → List Byte → Memory
  | _, [] => []
  | k, b :: bs => (k, b) :: cellsFrom (k + 1) bs

/-- The reset state with these bytes in the buffer from cell 0. -/
def bufState (bs : List Byte) : State := { State.reset with buf := cellsFrom 0 bs }

theorem cellsFrom_get? (bs : List Byte) (k i : Nat) : (cellsFrom k bs).get? (k + i) = bs[i]? := by
  induction bs generalizing k i with
  | nil => rfl
  | cons b bs ih =>
    cases i with
    | zero => simp [cellsFrom, Memory.get?]
    | succ i =>
      have := ih (k + 1) i
      rw [show k + 1 + i = k + (i + 1) by omega] at this
      simp [cellsFrom, Memory.get?, this]

theorem bufState_holds (bs : List Byte) (h : bs.length ≤ 65537) {i : Nat} (hi : i < bs.length) :
    HoldsByte (bufState bs) i bs[i] := by
  refine ⟨Nat.lt_of_lt_of_le hi h, by simp [bufState, State.reset], ?_⟩
  have := cellsFrom_get? bs 0 i
  rw [Nat.zero_add] at this
  exact this.trans (List.getElem?_eq_getElem hi)

/-- The bytes are the input of a call on that state, up to the largest buffer. -/
theorem bufState_inputIs (bs : List Byte) (h : bs.length ≤ 65537) :
    InputIs (bufState bs) bs.length bs :=
  ⟨rfl, fun _ hi => ⟨_, List.getElem?_eq_getElem hi, bufState_holds bs h hi⟩⟩

/-- 65535 cells of zero: program P6's buffer. -/
def zeros : List Byte := List.replicate 65535 0#8

theorem zeros_length : zeros.length = 65535 := List.length_replicate

/-- A call of `APPEND_CRC16 6` with its checksum computed, in the phase given (P2). -/
def appendState (p : Phase) : State :=
  { bufState [0x01, 0x03, 0x00, 0x00, 0x00, 0x0A] with
    op := 1#1, len := 6#16, idx := 6#16, crc := 0xCDC5#16, phase := p }

/-- `CRC16 9` after `k` of the nine bytes of P1. -/
def runState (k : Word) (c : Word) : State :=
  { bufState [0x31, 0x32, 0x33, 0x34, 0x35, 0x36, 0x37, 0x38, 0x39] with
    len := 9#16, idx := k, crc := c, phase := .run }

/-- A finished call (P1). -/
def doneState : State := { runState 9#16 0x4B37#16 with phase := .idle, done := true }

/-! ### The well-formedness checks refuse ill-formed terms (R67, R62, R61, R66) -/

theorem test_wf_refuses_length_65536 :
    SourceCommand.wf ⟨0#1, 65536⟩ = false ∧ SourceCommand.assemble ⟨1#1, 65536⟩ = none ∧
      SourceCommand.assemble ⟨0#1, 65535⟩ = some (.crc16 0xFFFF#16) := by decide

theorem test_word_of_18_bits_refused :
    decodeNumber 0x20000 = .error .widerThanCommandWord ∧ decodeTableWord 24 0x20009 = none :=
  ⟨rfl, by decide⟩

theorem test_memory_form_refuses_repeat : ¬ Memory.wf [(1, 0#8), (1, 2#8)] := by decide

/-! ### Decoding and encoding (R61, R63, R67; section 5 of the vectors) -/

/-- `0LLLLLLLLLLLLLLLL` with `len` = 9. -/
theorem test_decode_crc16 : decode 0b00000000000001001#17 = .crc16 9#16 := by decide

/-- Bit 15 is part of the length, not a sign. -/
theorem test_decode_crc16_top_length : decode 0b01000000000000000#17 = .crc16 32768#16 := by decide

/-- `1LLLLLLLLLLLLLLLL` with `len` = 6. -/
theorem test_decode_append : decode 0b10000000000000110#17 = .appendCrc16 6#16 := by decide

theorem test_decode_append_top : decode 0b11111111111111111#17 = .appendCrc16 65535#16 := by decide

theorem test_encode :
    encode (.crc16 9#16) = 0x00009#17 ∧ encode (.appendCrc16 6#16) = 0x10006#17 := by decide

theorem test_decode_table_word :
    decodeTableWord 24 0x00009 = some (.crc16 9#16) ∧
      decodeTableWord 24 0x10006 = some (.appendCrc16 6#16) := by decide

/-! ### The micro-operations (section 3 of the vectors) -/

theorem test_bitstep :
    bitstep 0x0000#16 = 0x0000#16 ∧ bitstep 0x0001#16 = 0xA001#16 ∧ bitstep 0x0003#16 = 0xA000#16 ∧
      bitstep 0x8000#16 = 0x4000#16 ∧ bitstep 0xFFFF#16 = 0xDFFE#16 ∧ bitstep 0x4002#16 = 0x2001#16 ∧
      bitstep 0x4003#16 = 0x8000#16 ∧ bitstep 0x1235#16 = 0xA91B#16 := by decide

theorem test_xorb :
    xorb 0xFFFF#16 0x31#8 = 0xFFCE#16 ∧ xorb 0x1234#16 0xFF#8 = 0x12CB#16 ∧
      xorb 0xAB00#16 0x80#8 = 0xAB80#16 := by decide

theorem test_upd :
    upd 0xFFFF#16 0x31#8 = 0x947E#16 ∧ upd 0x1234#16 0x56#8 = 0xE993#16 ∧
      upd 0xFF00#16 0x00#8 = 0x00FF#16 ∧ upd 0xA001#16 0x01#8 = 0x00A0#16 := by decide

/-- Four entries of the table of section 4. -/
theorem test_table :
    upd 0#16 0x01#8 = 0xC0C1#16 ∧ upd 0#16 0x3F#8 = 0x1040#16 ∧ upd 0#16 0x80#8 = 0xA001#16 ∧
      upd 0#16 0xFF#8 = 0x4040#16 := by decide

/-- Section 2: `A8 EA`, `FF FF`, `80` (no sign extension) and a zero byte (not 0xBFFF, C7). -/
theorem test_crc16_vectors :
    crc16 [0xA8, 0xEA] = 0xFFFF#16 ∧ crc16 [0xFF, 0xFF] = 0x0000#16 ∧ crc16 [0x80] = 0xE0BE#16 ∧
      crc16 [0x00] = 0x40BF#16 := by decide +kernel

/-! ### The commands -/

/-- Program P1: 0x4B37, not 0xBB3D (C1). -/
theorem test_crc16_nine_bytes :
    exec (.crc16 9#16) { doneState with crc := 0#16, len := 0#16, idx := 0#16, done := false } =
      .next doneState := by
  have hi : inputBytes 9#16 { doneState with crc := 0#16, len := 0#16, idx := 0#16, done := false } =
      .ok [0x31, 0x32, 0x33, 0x34, 0x35, 0x36, 0x37, 0x38, 0x39] := by rfl
  have hc : crc16 [0x31, 0x32, 0x33, 0x34, 0x35, 0x36, 0x37, 0x38, 0x39] = 0x4B37#16 := by
    decide +kernel
  simp only [exec, execCrc16, hi, hc]
  rfl

/-- The empty buffer (R100), presented as the first instruction after reset. -/
theorem test_crc16_empty_from_reset :
    step (State.reset.withFetchWord 24 0x00000) = .next { State.reset with done := true } := by rfl

/-- Program P3, presented as the first instruction after reset. -/
theorem test_append_empty_from_reset :
    step (State.reset.withFetchWord 24 0x10000) =
      .next { State.reset with op := 1#1, done := true, buf := [(0, 0xFF#8), (1, 0xFF#8)] } := by rfl

/-- One input byte 0x80 (section 2): BE at the lower index, E0 above it. -/
theorem test_append_one_byte :
    exec (.appendCrc16 1#16) (bufState [0x80]) =
      .next { State.reset with
        op := 1#1, len := 1#16, idx := 1#16, crc := 0xE0BE#16, done := true,
        buf := [(0, 0x80#8), (1, 0xBE#8), (2, 0xE0#8)] } := by rfl

/-! ### The small steps and the host's moves -/

/-- P1's first `BYTE`. -/
theorem test_byte : blockStep (runState 0#16 0xFFFF#16) = .next (runState 1#16 0x947E#16) := by rfl

/-- P2's `APPLO` and `APPHI`. -/
theorem test_append_steps :
    blockStep (appendState .appLo) =
        .next (setPhase .appHi (memWrite (appendState .appLo) 6 0xC5#8)) ∧
      blockStep (appendState .appHi) =
        .next (completeCall (memWrite (appendState .appHi) 7 0xCD#8)) := ⟨rfl, rfl⟩

/-- Section 5: a `START` in `RUN` is not taken; `RESET` in `APP_HI` leaves cells 6 and 7 with no value. -/
theorem test_reset_cuts_append :
    (resetMove (appendState .appHi)).void = [6, 7] ∧ (resetMove (appendState .appHi)).phase = .idle ∧
      (resetMove (appendState .appHi)).crc = 0xFFFF#16 := by decide

theorem test_status_while_running :
    statusMove (runState 3#16 0x7A75#16) =
      .next (answer (.status true false) (runState 3#16 0x7A75#16)) := by rfl

/-! ### Every statement's hypotheses are met by a concrete state and operands -/

theorem witness_EncodeDecodeRoundTrip : decode 0x10006#17 = decode 0x10006#17 := rfl

theorem witness_DecoderFollowsBitSixteen :
    (0x0FFFF#17 : CmdWord).getLsbD 16 = false ∧ (0x10000#17 : CmdWord).getLsbD 16 = true ∧
      131071 < 131072 ∧ 131072 ≤ 131072 := by decide

theorem witness_ResetFromEveryState :
    (withHost [.reset] (appendState .appHi)).host = .reset :: [] := rfl

theorem witness_StepRunsPresentedCommand :
    (withHost [.call 0x00009#17] doneState).phase = .idle ∧
      (withHost [.call 0x00009#17] doneState).host = .call 0x00009#17 :: [] ∧
      decodeTableWord 24 0x10006 = some (.appendCrc16 6#16) := by decide

theorem witness_StepMakesTheNextMove :
    doneState.host = [] ∧ (withHost [.wait] doneState).host = .wait :: [] ∧
      (withHost [.read 0#17] doneState).host = .read 0#17 :: [] ∧
      (withHost [.write 65536#17 1#8] doneState).host = .write 65536#17 1#8 :: [] ∧
      (withHost [.status] doneState).host = .status :: [] := by decide

theorem witness_BusyCommandNotTaken :
    (withHost [.start 0x10004#17] (runState 3#16 0x7A75#16)).phase ≠ .idle ∧
      (withHost [.start 0x10004#17] (runState 3#16 0x7A75#16)).host = .start 0x10004#17 :: [] ∧
      (withHost [.call 0x10004#17] (appendState .appLo)).phase ≠ .idle ∧
      (withHost [.call 0x10004#17] (appendState .appLo)).host = .call 0x10004#17 :: [] := by decide

theorem witness_BitstepShiftsThenXors :
    (0x8001#16 : Word).toNat % 2 = 1 ∧ (0x8000#16 : Word).toNat % 2 = 0 := by decide

theorem witness_UpdIsXorThenEightBitsteps :
    highByte 0xFFFF#16 = highByte 0xFF00#16 ∧
      lowByte 0xFFFF#16 ^^^ 0xFF#8 = lowByte 0xFF00#16 ^^^ 0x00#8 := by decide

theorem witness_ShortChecksumsAreDistinct :
    crc16 [0x01] = crc16 [0x01] ∧ crc16 [0x01, 0x02] = crc16 [0x01, 0x02] ∧ (0x01#8 : Byte) ≠ 0x02#8 := by
  decide

/-- The shortest input. -/
theorem witness_Crc16CommandResult_empty :
    State.reset.phase = .idle ∧ InputIs State.reset (0#16).toNat [] := by
  exact ⟨rfl, rfl, fun _ h => absurd h (by simp)⟩

/-- The longest input, with room for the checksum at cells 65535 and 65536. -/
theorem witness_AppendCommandResult_longest :
    (bufState zeros).phase = .idle ∧ InputIs (bufState zeros) (65535#16).toNat zeros ∧
      HasRoom (bufState zeros) 65535#16 := by
  refine ⟨rfl, ?_, by decide⟩
  have := bufState_inputIs zeros (by rw [zeros_length]; omega)
  rw [zeros_length] at this
  exact this

theorem witness_AppendedSequence :
    (bufState [0x80]).phase = .idle ∧ InputIs (bufState [0x80]) (1#16).toNat [0x80] ∧
      HasRoom (bufState [0x80]) 1#16 :=
  ⟨rfl, bufState_inputIs [0x80] (by decide), by decide⟩

theorem witness_Crc16Frame :
    (∃ t, exec (.crc16 0#16) State.reset = .next t) ∧
      (∃ t, exec (.crc16 4#16) (runState 3#16 0x7A75#16) = .next t) ∧
      (runState 3#16 0x7A75#16).phase ≠ .idle := by
  exact ⟨⟨_, rfl⟩, ⟨_, rfl⟩, by decide⟩

theorem witness_AppendFrame :
    (∃ t, exec (.appendCrc16 1#16) (bufState [0x80]) = .next t) ∧
      (∃ t, exec (.appendCrc16 4#16) (runState 3#16 0x7A75#16) = .next t) ∧
      (0 : Nat) ≠ (lowIndex 1#16).toNat ∧ (0 : Nat) ≠ (highIndex 1#16).toNat := by
  exact ⟨⟨_, rfl⟩, ⟨_, rfl⟩, by decide, by decide⟩

theorem witness_InputNotMutated :
    (∃ t, exec (.appendCrc16 1#16) (bufState [0x80]) = .next t) ∧ 0 < (Instr.appendCrc16 1#16).len.toNat ∧
      (∃ t, exec (.crc16 1#16) (bufState [0x80]) = .next t) ∧ (Instr.crc16 1#16).op = 0#1 :=
  ⟨⟨_, rfl⟩, by decide, ⟨_, rfl⟩, rfl⟩

/-- Both sides of the conditions occur: an input cell with no value, a missing output cell, neither. -/
theorem witness_CommandStopsOnlyOnMissingCells :
    State.reset.phase = .idle ∧ exec (.crc16 1#16) State.reset = .fault .cellHoldsNoValue ∧
      exec (.appendCrc16 0#16) { State.reset with cells := 1 } = .fault .noRoomForChecksum ∧
      (∃ t, exec (.appendCrc16 0#16) { State.reset with cells := 2 } = .next t) := by
  exact ⟨rfl, rfl, rfl, _, rfl⟩

theorem witness_OutcomeDependsOnlyOnInput :
    (bufState [0x80]).phase = .idle ∧ ({ bufState [0x80] with crc := 0#16, done := true }).phase = .idle ∧
      InputIs (bufState [0x80]) (Instr.appendCrc16 1#16).len.toNat [0x80] ∧
      InputIs { bufState [0x80] with crc := 0#16, done := true } (Instr.appendCrc16 1#16).len.toNat [0x80] ∧
      ((Instr.appendCrc16 1#16).op = 1#1 → HasRoom (bufState [0x80]) 1#16 ∧
        HasRoom { bufState [0x80] with crc := 0#16, done := true } 1#16) :=
  ⟨rfl, rfl, bufState_inputIs [0x80] (by decide), bufState_inputIs [0x80] (by decide), fun _ => by decide⟩

theorem witness_ChecksumOfAppendedBufferIsZero :
    (bufState [0x80]).phase = .idle ∧ (1#16).toNat + 2 ≤ 65535 ∧
      ∃ t, exec (.appendCrc16 1#16) (bufState [0x80]) = .next t :=
  ⟨rfl, by decide, _, rfl⟩

theorem witness_StartLatchesCommand :
    (withHost [.start (1#1 ++ 6#16)] doneState).host = .start (1#1 ++ 6#16) :: [] ∧
      (withHost [.start (1#1 ++ 6#16)] doneState).phase = .idle ∧
      (withHost [.start (1#1 ++ 6#16)] (runState 3#16 0x7A75#16)).phase ≠ .idle := by decide

/-- All together at the second byte, and the byte at the last index of the call. -/
theorem witness_ByteConsumesNextCell :
    ((runState 1#16 0x947E#16).phase = .run ∧ (runState 1#16 0x947E#16).idx < (runState 1#16 0x947E#16).len ∧
      HoldsByte (runState 1#16 0x947E#16) 1 0x32#8 ∧ ConsumedPrefix (runState 1#16 0x947E#16)) ∧
      (runState 8#16 0x37DD#16).idx < (runState 8#16 0x37DD#16).len ∧
      HoldsByte (runState 8#16 0x37DD#16) 8 0x39#8 := by
  refine ⟨⟨rfl, by decide, by decide, [0x31], ⟨rfl, fun i hi => ?_⟩, by decide⟩, by decide, by decide⟩
  have hi' : i < 1 := hi
  obtain rfl : i = 0 := by omega
  exact ⟨0x31#8, rfl, by decide⟩

theorem witness_EndChoosesByOperation :
    (runState 9#16 0x4B37#16).phase = .run ∧ (runState 9#16 0x4B37#16).idx = (runState 9#16 0x4B37#16).len ∧
      (runState 9#16 0x4B37#16).op = 0#1 ∧ (appendState .run).phase = .run ∧
      (appendState .run).idx = (appendState .run).len ∧ (appendState .run).op = 1#1 := by decide

/-- The last cells that exist. -/
theorem witness_AppLoWritesLowByte :
    ({ appendState .appLo with cells := 7 }).phase = .appLo ∧
      ({ appendState .appLo with cells := 7 }).len.toNat < 7 := by decide

theorem witness_AppHiWritesHighByte :
    ({ appendState .appHi with cells := 8 }).phase = .appHi ∧
      ({ appendState .appHi with cells := 8 }).len.toNat + 1 < 8 := by decide

theorem witness_BlockStopsOnMissingCells :
    blockStep { runState 3#16 0x7A75#16 with cells := 3 } = .fault .noSuchCell ∧
      blockStep { runState 3#16 0x7A75#16 with buf := [] } = .fault .cellHoldsNoValue ∧
      blockStep { appendState .appLo with cells := 6 } = .next { appendState .appLo with cells := 6 } ∧
      blockStep { appendState .appHi with cells := 7 } = .next { appendState .appHi with cells := 7 } :=
  ⟨rfl, rfl, rfl, rfl⟩

theorem witness_AppendWithoutRoomNeverDone :
    ¬ HasRoom { State.reset with cells := 1 } 0#16 ∧
      ∃ t, runSteps 4 (latchCommand 1#1 0#16 { State.reset with cells := 1, host := [] }) = .next t :=
  ⟨by decide, _, rfl⟩

theorem witness_GetAnswersResult :
    (withHost [.get] doneState).host = .get :: [] ∧ (withHost [.get] doneState).done = true ∧
      (withHost [.get, .get] doneState).host = .get :: .get :: [] ∧
      (withHost [.get, .get] doneState).done = true := by decide

theorem witness_GetWithoutResultIsFree :
    (withHost [.get] State.reset).host = .get :: [] ∧ (withHost [.get] State.reset).done = false := by
  decide

/-- The two output cells of an append in progress, the high one with no byte listed; the cells of an append
that a `RESET` cut; a cell of a finished buffer, and the last input cell of an append in progress. -/
theorem witness_HostReadAnswersCell :
    ((7#17 : Index).toNat < (appendState .appHi).cells ∧ (appendState .appHi).phase ≠ .idle ∧
      (appendState .appHi).op = 1#1 ∧ (6#17 : Index).toNat = (appendState .appHi).len.toNat ∧
      (7#17 : Index).toNat = (appendState .appHi).len.toNat + 1 ∧
      (appendState .appHi).buf.get? 7 = none) ∧
    ((6#17 : Index).toNat ∈ (resetMove (appendState .appHi)).void ∧
      (7#17 : Index).toNat ∈ (resetMove (appendState .appHi)).void ∧
      (resetMove (appendState .appHi)).phase = .idle) ∧
    HoldsByte doneState (8#17 : Index).toNat 0x39#8 ∧ doneState.phase = .idle ∧
    HoldsByte (appendState .appHi) (5#17 : Index).toNat 0x0A#8 := by decide

theorem witness_HostWriteSeenByByte :
    (3#17 : Index).toNat < (runState 3#16 0x7A75#16).cells ∧ (runState 3#16 0x7A75#16).op ≠ 1#1 ∧
      (runState 3#16 0x7A75#16).phase = .run ∧ (runState 3#16 0x7A75#16).idx < (runState 3#16 0x7A75#16).len ∧
      (runState 3#16 0x7A75#16).idx.toNat = (3#17 : Index).toNat := by decide

/-- Each stop of the host's moves occurs, and so does none. -/
theorem witness_HostMovesStopByName :
    hostRead 65537#17 State.reset = .fault .noSuchCell ∧
      hostRead 65536#17 State.reset = .fault .cellHoldsNoValue ∧
      hostWrite 65537#17 1#8 State.reset = .fault .noSuchCell ∧
      hostWrite 7#17 1#8 (appendState .appLo) = .refused .hostWritesOutputDuringCall ∧
      (∃ t, hostWrite 8#17 1#8 (appendState .appLo) = .next t) := by
  exact ⟨rfl, rfl, rfl, rfl, _, rfl⟩

theorem witness_ReadAfterWrite : 65536 < State.reset.cells ∧ (0 : Nat) ≠ 65536 := by decide

theorem witness_InvariantKeptByEveryStep :
    Inv (appendState .appHi) ∧ ∃ t, step (appendState .appHi) = .next t := ⟨by decide, _, rfl⟩

theorem witness_PrefixChecksumKeptByEveryStep :
    Inv (runState 0#16 0xFFFF#16) ∧ ConsumedPrefix (runState 0#16 0xFFFF#16) ∧
      (∀ a b ms, (runState 0#16 0xFFFF#16).host = .write a b :: ms → (0#16).toNat ≤ a.toNat) ∧
      ∃ t, step (runState 0#16 0xFFFF#16) = .next t :=
  ⟨by decide, ⟨[], ⟨rfl, fun _ h => absurd h (by simp [runState, bufState])⟩, rfl⟩,
    fun _ _ _ _ => Nat.zero_le _, _, rfl⟩

theorem witness_SmallStepsMakeCalls : doneState.phase = .idle ∧ HasRoom doneState 65535#16 := by decide

theorem witness_EveryCallEnds :
    Inv (runState 8#16 0x37DD#16) ∧ (runState 8#16 0x37DD#16).phase ≠ .idle ∧
      (runState 8#16 0x37DD#16).host = [] ∧ HoldsByte (runState 8#16 0x37DD#16) 8 0x39#8 ∧
      (runState 8#16 0x37DD#16).op ≠ 1#1 ∧
      Inv (appendState .appLo) ∧ (appendState .appLo).phase ≠ .idle ∧ (appendState .appLo).host = [] ∧
      (appendState .appLo).op = 1#1 ∧ HasRoom (appendState .appLo) 6#16 := by decide

theorem witness_ResultStableUntilNextStart :
    Inv (withHost [.get] doneState) ∧ (withHost [.get] doneState).done = true ∧
      (∃ t, step (withHost [.get] doneState) = .next t) ∧
      (∀ w ms, (withHost [.get] doneState).host ≠ .start w :: ms ∧
        (withHost [.get] doneState).host ≠ .call w :: ms) ∧
      (∀ ms, (withHost [.get] doneState).host ≠ .reset :: ms) :=
  ⟨by decide, rfl, ⟨_, rfl⟩, fun _ _ => ⟨by simp, by simp⟩, fun _ => by simp⟩

/-- `done` rises at `END`, at `APPHI` and at a whole call, and falls at `START` and `RESET`. -/
theorem witness_DoneWrittenOnlyByCalls :
    (∃ t, step (runState 9#16 0x4B37#16) = .next t ∧ t.done = true) ∧
      (∃ t, step (appendState .appHi) = .next t ∧ t.done = true) ∧
      (∃ t, step (withHost [.call 0#17] State.reset) = .next t ∧ t.done = true) ∧
      (∃ t, step (withHost [.start 0#17] doneState) = .next t ∧ t.done = false) ∧
      (∃ t, step (withHost [.reset] doneState) = .next t ∧ t.done = false) :=
  ⟨⟨_, rfl, rfl⟩, ⟨_, rfl, rfl⟩, ⟨_, rfl, rfl⟩, ⟨_, rfl, rfl⟩, ⟨_, rfl, rfl⟩⟩

/-- Each writer changes a cell. -/
theorem witness_CellsChangedOnlyByTheirWriters :
    (∃ t, step (withHost [.write 4#17 9#8] State.reset) = .next t ∧ t.buf.get? 4 ≠ State.reset.buf.get? 4) ∧
      (∃ t, step (appendState .appLo) = .next t ∧ t.buf.get? 6 ≠ (appendState .appLo).buf.get? 6) ∧
      (∃ t, step (appendState .appHi) = .next t ∧ t.buf.get? 7 ≠ (appendState .appHi).buf.get? 7) ∧
      (∃ t, step (withHost [.call 0x10000#17] State.reset) = .next t ∧
        t.buf.get? 1 ≠ State.reset.buf.get? 1) :=
  ⟨⟨_, rfl, by decide⟩, ⟨_, rfl, by decide⟩, ⟨_, rfl, by decide⟩, ⟨_, rfl, by decide⟩⟩

theorem witness_LatchesConstantDuringCall :
    (∃ t, step (runState 3#16 0x7A75#16) = .next t) ∧ (runState 3#16 0x7A75#16).phase ≠ .idle ∧
      (∀ ms, (runState 3#16 0x7A75#16).host ≠ .reset :: ms) :=
  ⟨⟨_, rfl⟩, by decide, fun _ => by simp [runState, bufState, State.reset]⟩

end Sys2Proof.Tests
end

section
/-! The fields of the state after reset that R34 gives a value, and the statement about them. -/

namespace Sys2Proof.Machine

@[simp] theorem State.reset_phase : State.reset.phase = .idle := rfl
@[simp] theorem State.reset_done : State.reset.done = false := rfl
@[simp] theorem State.reset_crc : State.reset.crc = 0xFFFF#16 := rfl
@[simp] theorem State.reset_idx : State.reset.idx = 0#16 := rfl
@[simp] theorem State.reset_len : State.reset.len = 0#16 := rfl
@[simp] theorem State.reset_op : State.reset.op = 0#1 := rfl

/-- Settles O5: the six values of R34's table, register by register. -/
theorem resetHoldsSpecValues : Obligations.ResetHoldsSpecValues :=
  ⟨State.reset_phase, State.reset_done, State.reset_crc, State.reset_idx, State.reset_len,
    State.reset_op⟩

end Sys2Proof.Machine
end

section
/-! What the commands leave of the buffer, and the statement that no input cell changes (R55). -/

namespace Sys2Proof.Machine

/-- R101: the two stores of an append leave every other cell. -/
theorem appendChecksum_get?_of_ne {s : State} {n c : Word} {a : Nat} (hlo : a ≠ n.toNat)
    (hhi : a ≠ n.toNat + 1) : (appendChecksum n c s).buf.get? a = s.buf.get? a := by
  rw [appendChecksum_buf, lowIndex_toNat, highIndex_toNat, Memory.get?_set_ne _ _ hhi,
    Memory.get?_set_ne _ _ hlo]

/-- R100: `CRC16` stores nothing, whether or not it is taken. -/
theorem execCrc16_next_buf {n : Word} {s t : State} (h : execCrc16 n s = .next t) :
    t.buf = s.buf := by
  obtain ⟨-, rfl⟩ | ⟨-, bs, -, rfl⟩ := execCrc16_next h
  · rfl
  · exact finishCall_buf ..

/-- R101: `APPEND_CRC16` stores to the cells `len` and `len + 1` only, if it is taken at all. -/
theorem execAppendCrc16_next_get?_of_ne {n : Word} {s t : State} {a : Nat}
    (h : execAppendCrc16 n s = .next t) (hlo : a ≠ n.toNat) (hhi : a ≠ n.toNat + 1) :
    t.buf.get? a = s.buf.get? a := by
  obtain ⟨-, rfl⟩ | ⟨-, -, bs, -, rfl⟩ := execAppendCrc16_next h
  · rfl
  · rw [finishCall_buf, appendChecksum_get?_of_ne hlo hhi]

/-- Settles O25: `CRC16` stores nothing, and `APPEND_CRC16` stores above its input only. -/
theorem inputNotMutated : Obligations.InputNotMutated := by
  intro s t i h
  cases i with
  | crc16 n =>
    have hbuf : t.buf = s.buf := execCrc16_next_buf h
    exact ⟨fun a _ => by rw [hbuf], fun _ a => by rw [hbuf]⟩
  | appendCrc16 n =>
    refine ⟨fun a ha => ?_, fun hop => absurd hop (by decide : (1#1 : OpBit) ≠ 0#1)⟩
    have hlt : a < n.toNat := ha
    exact execAppendCrc16_next_get?_of_ne h (by omega) (by omega)

end Sys2Proof.Machine
end

section
/-! The two fields of a command word as numbers, and the decoder said by bit 16 and by number (R61 to
R66). -/

namespace Sys2Proof

/-- R61: the field `op` is bit 16. -/
theorem opField_eq_ofBool (w : CmdWord) : opField w = BitVec.ofBool (w.getLsbD 16) := by
  apply BitVec.eq_of_getLsbD_eq
  intro k hk
  obtain rfl : k = 0 := by omega
  simp [opField]

/-- R61: the number of a word is 65536 times its `op` plus its `len`. -/
theorem toNat_eq_opField_lenField (w : CmdWord) :
    w.toNat = 65536 * (opField w).toNat + (lenField w).toNat := by
  have hop : (opField w).toNat = w.toNat / 65536 % 2 := by
    rw [opField, BitVec.extractLsb'_toNat, Nat.shiftRight_eq_div_pow]
  have hlen : (lenField w).toNat = w.toNat % 65536 := by
    rw [lenField, BitVec.extractLsb'_toNat, Nat.shiftRight_zero]
  omega

/-- R63, on a word with bit 16 clear. -/
theorem decode_of_bit16_clear {w : CmdWord} (h : w.getLsbD 16 = false) :
    (lenField w).toNat = w.toNat ∧ decode w = .crc16 (lenField w) := by
  have hop : opField w = 0#1 := by rw [opField_eq_ofBool, h]; rfl
  have hnum := toNat_eq_opField_lenField w
  rw [hop] at hnum
  exact ⟨by simpa using hnum.symm, if_pos hop⟩

/-- R63, on a word with bit 16 set. -/
theorem decode_of_bit16_set {w : CmdWord} (h : w.getLsbD 16 = true) :
    (lenField w).toNat + 65536 = w.toNat ∧ decode w = .appendCrc16 (lenField w) := by
  have hop : opField w = 1#1 := by rw [opField_eq_ofBool, h]; rfl
  have hnum := toNat_eq_opField_lenField w
  rw [hop] at hnum
  exact ⟨by rw [hnum, Nat.add_comm]; rfl, if_neg (by rw [hop]; decide)⟩

/-- R65: every number of 17 bits is decoded. -/
theorem decodeNumber_of_lt {k : Nat} (h : k < 131072) :
    decodeNumber k = .ok (decode (BitVec.ofNat 17 k)) := by
  rw [decodeNumber, commandWord, if_pos h]; rfl

/-- R61, R66: a number with a bit above bit 16 is no command word. -/
theorem decodeNumber_of_ge {k : Nat} (h : 131072 ≤ k) :
    decodeNumber k = .error .widerThanCommandWord := by
  rw [decodeNumber, commandWord, if_neg (Nat.not_lt.mpr h)]; rfl

/-- Settles O3: bit 16 splits the words, and the number of a word is `op` and `len` put together. -/
theorem decoderFollowsBitSixteen : Obligations.DecoderFollowsBitSixteen :=
  ⟨fun w => ⟨fun h => ⟨lenField w, decode_of_bit16_clear h⟩,
    fun h => ⟨lenField w, decode_of_bit16_set h⟩⟩,
    fun _ => decodeNumber_of_lt, fun _ => decodeNumber_of_ge⟩

end Sys2Proof
end

section
/-! The two bytes of a word, `XORB` as one exclusive or, `BITSTEP` by the parity of the number, `UPD` as an
iterate, and the statements about them (R82 to R85). -/

namespace Sys2Proof.Machine

@[simp] theorem highByte_append (h l : Byte) : highByte (h ++ l) = h :=
  BitVec.extractLsb'_append_eq_left

@[simp] theorem lowByte_append (h l : Byte) : lowByte (h ++ l) = l :=
  BitVec.extractLsb'_append_eq_right

/-- R9: a word is its two bytes, the high one first. -/
theorem highByte_append_lowByte (c : Word) : highByte c ++ lowByte c = c := by
  rw [highByte, lowByte, BitVec.extractLsb'_append_extractLsb'_eq_extractLsb' (by decide)]
  exact BitVec.extractLsb'_eq_self

@[simp] theorem highByte_xorb (c : Word) (b : Byte) : highByte (xorb c b) = highByte c :=
  highByte_append ..

@[simp] theorem lowByte_xorb (c : Word) (b : Byte) : lowByte (xorb c b) = lowByte c ^^^ b :=
  lowByte_append ..

/-- R82: as 16-bit values, `XORB` is the exclusive or with the byte over a high byte of zeros. -/
theorem xorb_eq_xor (c : Word) (b : Byte) : xorb c b = c ^^^ b.setWidth 16 := by
  have hb : b.setWidth 16 = 0#8 ++ b := BitVec.setWidth_eq_append (by decide)
  calc xorb c b
    _ = (highByte c ^^^ 0#8) ++ (lowByte c ^^^ b) := by rw [xorb, BitVec.xor_zero]
    _ = (highByte c ++ lowByte c) ^^^ (0#8 ++ b) := BitVec.xor_append.symm
    _ = c ^^^ b.setWidth 16 := by rw [highByte_append_lowByte, hb]

/-- R84: the byte enters `XORB` only through its sum with the low byte. -/
theorem xorb_congr {c c' : Word} {b b' : Byte} (hhigh : highByte c = highByte c')
    (hlow : lowByte c ^^^ b = lowByte c' ^^^ b') : xorb c b = xorb c' b' := by
  rw [xorb, xorb, hhigh, hlow]

/-- Settles O11: the two bytes of the pair `XORB` forms, and the pair as one exclusive or. -/
theorem xorbChangesLowByteOnly : Obligations.XorbChangesLowByteOnly :=
  fun c b => ⟨highByte_xorb c b, lowByte_xorb c b, xorb_eq_xor c b⟩

/-- R83, with bit 0 set. -/
theorem bitstep_of_odd {c : Word} (h : c.toNat % 2 = 1) : bitstep c = (c >>> 1) ^^^ poly :=
  if_pos (by simp [BitVec.getLsbD, h])

/-- R83, with bit 0 clear. -/
theorem bitstep_of_even {c : Word} (h : c.toNat % 2 = 0) : bitstep c = c >>> 1 :=
  if_neg (by simp [BitVec.getLsbD, h])

/-- Settles O12: one case of `BITSTEP` for each value of bit 0, read as a number. -/
theorem bitstepShiftsThenXors : Obligations.BitstepShiftsThenXors := by
  intro c
  have hhalf : (c >>> 1).toNat = c.toNat / 2 := by
    rw [BitVec.toNat_ushiftRight, Nat.shiftRight_one]
  refine ⟨fun hodd => ?_, fun heven => ?_⟩
  · rw [bitstep_of_odd hodd, BitVec.toNat_xor, hhalf]
    rfl
  · rw [bitstep_of_even heven, hhalf]

/-- R84: `BITSTEP` taken `k` times is its `k`-th iterate. -/
theorem bitsteps_eq_iterate (k : Nat) (c : Word) : bitsteps k c = bitstep^[k] c := by
  induction k generalizing c with
  | zero => rfl
  | succ k ih => rw [bitsteps_succ, ih, Function.iterate_succ_apply]

/-- R84: `UPD` as one exclusive or and eight shift steps. -/
theorem upd_eq_iterate (c : Word) (b : Byte) : upd c b = bitstep^[8] (c ^^^ b.setWidth 16) := by
  rw [upd, bitsteps_eq_iterate, xorb_eq_xor]

/-- R84: `UPD` depends on the byte only through its sum with the low byte. -/
theorem upd_congr {c c' : Word} {b b' : Byte} (hhigh : highByte c = highByte c')
    (hlow : lowByte c ^^^ b = lowByte c' ^^^ b') : upd c b = upd c' b' := by
  rw [upd, upd, xorb_congr hhigh hlow]

/-- Settles O14: `UPD` is eight iterates of `BITSTEP` after `XORB`, and `XORB` alone sees the byte. -/
theorem updIsXorThenEightBitsteps : Obligations.UpdIsXorThenEightBitsteps :=
  ⟨upd_eq_iterate, fun _ _ _ _ => upd_congr⟩

/-- Settles O15: the fold over no byte, and over one byte more. -/
theorem checksumIsLeftFold : Obligations.ChecksumIsLeftFold :=
  ⟨crc16_nil, crc16_snoc⟩

end Sys2Proof.Machine
end

section
/-! What a whole call answers when its input is there, and the statements about its result (R100, R101,
R108). -/

namespace Sys2Proof.Machine

/-! ### The two bytes of a checksum -/

/-- R41: a word is its two bytes read as little-endian. -/
theorem lowByte_add_highByte (c : Word) : (lowByte c).toNat + 256 * (highByte c).toNat = c.toNat := by
  have hc := c.isLt
  rw [lowByte, highByte, BitVec.extractLsb'_toNat, BitVec.extractLsb'_toNat, Nat.shiftRight_zero,
    Nat.shiftRight_eq_div_pow]
  omega

/-! ### The input of a call, cell by cell -/

/-- The input stays the input when each of its cells keeps its byte. -/
theorem InputIs.of_holdsByte {s t : State} {n : Nat} {bs : List Byte} (h : InputIs s n bs)
    (hcell : ∀ a b, a < n → HoldsByte s a b → HoldsByte t a b) : InputIs t n bs := by
  obtain ⟨hlen, hbytes⟩ := h
  refine ⟨hlen, fun i hi => ?_⟩
  obtain ⟨b, hget, hold⟩ := hbytes i hi
  exact ⟨b, hget, hcell i b hi hold⟩

/-- The byte of the next cell makes the input one longer. -/
theorem InputIs.snoc {s : State} {n : Nat} {bs : List Byte} {b : Byte} (h : InputIs s n bs)
    (hb : HoldsByte s n b) : InputIs s (n + 1) (bs ++ [b]) := by
  obtain ⟨rfl, hbytes⟩ := h
  refine ⟨List.length_append, fun i hi => ?_⟩
  obtain hlt | rfl := Nat.lt_succ_iff_lt_or_eq.1 hi
  · obtain ⟨c, hget, hold⟩ := hbytes i hlt
    exact ⟨c, by rw [List.getElem?_append_left hlt, hget], hold⟩
  · exact ⟨b, List.getElem?_concat_length, hb⟩

/-! ### The two stores of an append -/

/-- R101: the two stores of an append leave what every other cell holds. -/
theorem holdsByte_appendChecksum_of_ne {s : State} {n c : Word} {a : Nat} {b : Byte}
    (hlo : a ≠ n.toNat) (hhi : a ≠ n.toNat + 1) :
    HoldsByte (appendChecksum n c s) a b ↔ HoldsByte s a b := by
  rw [appendChecksum, lowIndex_toNat, highIndex_toNat, holdsByte_memWrite_ne hhi,
    holdsByte_memWrite_ne hlo]

/-- R101: the two stores of an append give no other cell a value and take none from it. -/
theorem mem_void_appendChecksum_of_ne {s : State} {n c : Word} {a : Nat} (hlo : a ≠ n.toNat)
    (hhi : a ≠ n.toNat + 1) : a ∈ (appendChecksum n c s).void ↔ a ∈ s.void := by
  simp [hlo, hhi]

/-- R101: cell `len` takes the low byte, which the second store leaves. -/
theorem holdsByte_appendChecksum_low {s : State} {n : Word} (hroom : HasRoom s n) (c : Word) :
    HoldsByte (appendChecksum n c s) n.toNat (lowByte c) := by
  rw [appendChecksum, lowIndex_toNat, highIndex_toNat, holdsByte_memWrite_ne (Nat.ne_add_one _)]
  exact holdsByte_memWrite_eq (Nat.lt_of_succ_lt hroom)

/-- R101: cell `len + 1` takes the high byte. -/
theorem holdsByte_appendChecksum_high {s : State} {n : Word} (hroom : HasRoom s n) (c : Word) :
    HoldsByte (appendChecksum n c s) (n.toNat + 1) (highByte c) := by
  rw [appendChecksum, highIndex_toNat]
  exact holdsByte_memWrite_eq hroom

/-! ### The whole calls -/

/-- R100: `CRC16` completes where its input is there. -/
theorem exec_crc16_of_inputIs {s : State} {n : Word} {bs : List Byte} (hp : s.phase = .idle)
    (hin : InputIs s n.toNat bs) : exec (.crc16 n) s = .next (finishCall 0#1 n (crc16 bs) s) := by
  rw [exec, execCrc16, (busy_eq_false_iff s).2 hp, inputBytes_ok_iff.2 hin]
  rfl

/-- R101: `APPEND_CRC16` completes where its input and its two cells are there. -/
theorem exec_appendCrc16_of_inputIs {s : State} {n : Word} {bs : List Byte} (hp : s.phase = .idle)
    (hin : InputIs s n.toNat bs) (hroom : HasRoom s n) :
    exec (.appendCrc16 n) s =
      .next (finishCall 1#1 n (crc16 bs) (appendChecksum n (crc16 bs) s)) := by
  rw [exec, execAppendCrc16, (busy_eq_false_iff s).2 hp, inputBytes_ok_iff.2 hin,
    (roomForChecksum_iff s n).2 hroom]
  rfl

/-- Settles O21: the registers `finishCall` writes are the six the statement names. -/
theorem crc16CommandResult : Obligations.Crc16CommandResult :=
  fun _ _ _ hp hin => exec_crc16_of_inputIs hp hin

/-- Settles O22: the registers are `finishCall`'s, the cells are those of the two stores before it. -/
theorem appendCommandResult : Obligations.AppendCommandResult := by
  intro s n bs hp hin hroom
  refine ⟨_, exec_appendCrc16_of_inputIs hp hin hroom, rfl, rfl, rfl, rfl, rfl, rfl,
    holdsByte_appendChecksum_low hroom _, holdsByte_appendChecksum_high hroom _,
    fun a hlo hhi => ⟨?_, ?_⟩, rfl, rfl, rfl, rfl⟩
  · exact appendChecksum_get?_of_ne hlo hhi
  · exact mem_void_appendChecksum_of_ne hlo hhi

/-- Settles O27: the input survives the two stores, and each stored byte makes the sequence one longer. -/
theorem appendedSequence : Obligations.AppendedSequence := by
  intro s n bs hp hin hroom
  refine ⟨_, lowByte (crc16 bs), highByte (crc16 bs), exec_appendCrc16_of_inputIs hp hin hroom, ?_,
    lowByte_add_highByte _⟩
  have hinput : InputIs (appendChecksum n (crc16 bs) s) n.toNat bs :=
    hin.of_holdsByte fun a b ha hold =>
      (holdsByte_appendChecksum_of_ne (by omega) (by omega)).2 hold
  have houtput := (hinput.snoc (holdsByte_appendChecksum_low hroom _)).snoc
    (holdsByte_appendChecksum_high hroom _)
  rwa [List.append_assoc] at houtput

end Sys2Proof.Machine
end

section
/-! The block's own steps where they are enabled, one equation each, `GET` with a result there, and the
statements about them (R103 to R107). -/

namespace Sys2Proof.Machine

/-! ### One equation for each step of the sequencer -/

/-- R103: `BYTE` consumes the byte its cell holds. -/
theorem blockStep_byte {s : State} {b : Byte} (hp : s.phase = .run) (hlt : s.idx < s.len)
    (hb : HoldsByte s s.idx.toNat b) : blockStep s = .next (consumeByte b s) := by
  simp only [blockStep, hp, if_pos hlt, byteStep, byteIndex_toNat, memRead_ok_iff.2 hb]

/-- R104: in `RUN` with the input consumed the step is `END`. -/
theorem blockStep_end {s : State} (hp : s.phase = .run) (heq : s.idx = s.len) :
    blockStep s = endStep s := by
  have hlt : ¬ s.idx < s.len := by rw [heq]; exact BitVec.lt_irrefl _
  simp only [blockStep, hp, if_neg hlt, if_pos heq]

/-- R105: `APPLO` where its cell exists. -/
theorem blockStep_appLo {s : State} (hp : s.phase = .appLo) (hc : s.len.toNat < s.cells) :
    blockStep s = .next (setPhase .appHi (memWrite s s.len.toNat (lowByte s.crc))) := by
  simp only [blockStep, hp, appLoStep, lowIndex_toNat, if_pos ((cellExists_iff _ _).2 hc)]

/-- R106: `APPHI` where its cell exists. -/
theorem blockStep_appHi {s : State} (hp : s.phase = .appHi) (hc : s.len.toNat + 1 < s.cells) :
    blockStep s = .next (completeCall (memWrite s (s.len.toNat + 1) (highByte s.crc))) := by
  simp only [blockStep, hp, appHiStep, highIndex_toNat, if_pos ((cellExists_iff _ _).2 hc)]

/-! ### `BYTE` -/

/-- R103: an index below a length has a successor that does not wrap. -/
theorem toNat_add_one_of_lt {i n : Word} (h : i < n) : (i + 1#16).toNat = i.toNat + 1 := by
  have hn := n.isLt
  have hin : i.toNat < n.toNat := h
  rw [BitVec.toNat_add, BitVec.toNat_ofNat]
  omega

/-- R90: with the byte at `idx` consumed as well, `crc` is still the checksum of what has been consumed. -/
theorem ConsumedPrefix.consumeByte {s : State} {b : Byte} (h : ConsumedPrefix s)
    (hlt : s.idx < s.len) (hb : HoldsByte s s.idx.toNat b) : ConsumedPrefix (consumeByte b s) := by
  obtain ⟨bs, hin, hcrc⟩ := h
  refine ⟨bs ++ [b], ?_, ?_⟩
  · rw [consumeByte_idx, toNat_add_one_of_lt hlt]
    exact hin.snoc hb
  · rw [consumeByte_crc, hcrc, crc16_snoc]

/-- Settles O32: one `UPD` on the accumulator is one byte more in the checksum of those consumed. -/
theorem byteConsumesNextCell : Obligations.ByteConsumesNextCell :=
  fun _ _ hp hlt hb =>
    ⟨blockStep_byte hp hlt hb, toNat_add_one_of_lt hlt, fun h => h.consumeByte hlt hb⟩

/-! ### `END`, `APPLO`, `APPHI` -/

/-- Settles O33: the two branches of `END`. -/
theorem endChoosesByOperation : Obligations.EndChoosesByOperation := by
  intro s hp heq
  rw [blockStep_end hp heq, endStep]
  refine ⟨fun hop => ?_, fun hop => ?_⟩
  · exact if_pos hop
  · exact if_neg (by rw [hop]; decide)

/-- R43: a write leaves the byte of every other cell, and whether that cell holds one. -/
theorem memWrite_frame (s : State) {a x : Nat} (v : Byte) (h : x ≠ a) :
    (memWrite s a v).buf.get? x = s.buf.get? x ∧ (x ∈ (memWrite s a v).void ↔ x ∈ s.void) :=
  ⟨Memory.get?_set_ne s.buf v h, by simp [h]⟩

/-- Settles O34: the cells are those of one store, and the registers are as `setPhase` leaves them. -/
theorem appLoWritesLowByte : Obligations.AppLoWritesLowByte :=
  fun s hp hc => ⟨_, blockStep_appLo hp hc, rfl, holdsByte_memWrite_eq hc,
    fun _ ha => memWrite_frame s _ ha, rfl, rfl, rfl, rfl, rfl, rfl, rfl, rfl, rfl⟩

/-- Settles O35: the cells are those of one store, and the registers are as `completeCall` leaves them. -/
theorem appHiWritesHighByte : Obligations.AppHiWritesHighByte :=
  fun s hp hc => ⟨_, blockStep_appHi hp hc, rfl, rfl, holdsByte_memWrite_eq hc,
    fun _ ha => memWrite_frame s _ ha, rfl, rfl, rfl, rfl, rfl, rfl, rfl, rfl⟩

/-! ### `GET` -/

/-- R107: `GET` with a result there answers the accumulator. -/
theorem step_get_of_done {s : State} {ms : List HostMove} (hh : s.host = .get :: ms)
    (hd : s.done = true) : step s = .next (answer (.result s.crc) (withHost ms s)) := by
  simp only [step, nextCall, otherStep, hh, getMove, crcOut, withHost_done, withHost_crc, hd, if_true]

/-- Settles O38: a `GET` leaves `done` and `crc`, so the one after it answers the same. -/
theorem getAnswersResult : Obligations.GetAnswersResult := by
  intro s ms hh hd
  have hfirst := step_get_of_done hh hd
  refine ⟨hfirst, fun t ms' ht hms => ?_⟩
  obtain rfl : answer (.result s.crc) (withHost ms s) = t := by
    rw [hfirst] at ht
    exact Host.Outcome.next.inj ht
  exact step_get_of_done hms hd

end Sys2Proof.Machine
end

section
/-! The encoder and the decoder undo each other, and the statements about them (R61 to R67). -/

namespace Sys2Proof

/-- R61: the encoder puts `op` where the decoder looks for it. -/
@[simp] theorem opField_encode (i : Instr) : opField (encode i) = i.op :=
  (Laws.EncodedFields.fields i.op i.len).1

/-- R61: the encoder puts `len` where the decoder looks for it. -/
@[simp] theorem lenField_encode (i : Instr) : lenField (encode i) = i.len :=
  (Laws.EncodedFields.fields i.op i.len).2

/-- R63: the command the decoder finds has the two fields of the word. -/
theorem decode_op_len (w : CmdWord) : (decode w).op = opField w ∧ (decode w).len = lenField w := by
  obtain hop | hop := Machine.opBit_cases (opField w)
  · rw [decode, if_pos hop]
    exact ⟨hop.symm, rfl⟩
  · rw [decode, if_neg (by rw [hop]; decide)]
    exact ⟨hop.symm, rfl⟩

/-- R60: a command is its operation and its length. -/
theorem Instr.eq_of_op_len : ∀ {i j : Instr}, i.op = j.op → i.len = j.len → i = j
  | .crc16 _, .crc16 _, _, hlen => congrArg Instr.crc16 hlen
  | .appendCrc16 _, .appendCrc16 _, _, hlen => congrArg Instr.appendCrc16 hlen
  | .crc16 _, .appendCrc16 _, hop, _ => absurd hop (by decide : (0#1 : OpBit) ≠ 1#1)
  | .appendCrc16 _, .crc16 _, hop, _ => absurd hop (by decide : (1#1 : OpBit) ≠ 0#1)

/-- R63: the decoder undoes the encoder. -/
@[simp] theorem decode_encode (i : Instr) : decode (encode i) = i := by
  obtain ⟨hop, hlen⟩ := decode_op_len (encode i)
  exact Instr.eq_of_op_len (by rw [hop, opField_encode]) (by rw [hlen, lenField_encode])

/-- R61: a word is determined by its two fields. -/
theorem CmdWord.eq_of_fields {w w' : CmdWord} (hop : opField w = opField w')
    (hlen : lenField w = lenField w') : w = w' := by
  apply BitVec.eq_of_toNat_eq
  rw [toNat_eq_opField_lenField w, toNat_eq_opField_lenField w', hop, hlen]

/-- R65: the encoder undoes the decoder. -/
theorem encode_decode (w : CmdWord) : encode (decode w) = w := by
  obtain ⟨hop, hlen⟩ := decode_op_len w
  exact CmdWord.eq_of_fields (by rw [opField_encode, hop]) (by rw [lenField_encode, hlen])

/-- The opcode table's 24 bits hold every command word. -/
theorem decodeTableWord_toNat (w : CmdWord) : decodeTableWord 24 w.toNat = some (decode w) := by
  have hlt : w.toNat < 2 ^ 24 := Nat.lt_of_lt_of_le w.isLt (by decide)
  rw [decodeTableWord, Nat.mod_eq_of_lt hlt, decodeNumber, commandWord_toNat]
  rfl

/-- R67: the text of a command stands for it. -/
theorem assemble_source (i : Instr) : i.source.assemble = some i := by
  have hwf : i.source.wf = true := i.wf_true
  rw [SourceCommand.assemble, if_pos hwf]
  cases i <;> simp [Instr.source, Instr.op, Instr.len]

/-- Settles O1: the two fields come back, through the word, its number and its text. -/
theorem decodeEncodeRoundTrip : Obligations.DecodeEncodeRoundTrip := by
  intro i
  refine ⟨decode_encode i, ?_, assemble_source i, i.wf_true⟩
  rw [decodeTableWord_toNat, decode_encode]

/-- Settles O2: the decoder has a left inverse, so it is injective. -/
theorem encodeDecodeRoundTrip : Obligations.EncodeDecodeRoundTrip :=
  fun w w' => ⟨encode_decode w, fun h => by rw [← encode_decode w, h, encode_decode]⟩

/-- Settles O4: R63 on each word of the spec's table. -/
theorem specWordsDecode : Obligations.SpecWordsDecode := by
  unfold Obligations.SpecWordsDecode
  decide

end Sys2Proof
end

section
/-! One inversion of `step` down to the state's fields: what a step that answers a next state has done, in
terms of the state it started from. The whole-machine rules are derived from it. -/

namespace Sys2Proof.Machine

/-- What the host has to come, what it last read and how many free values were drawn are these. -/
def withOutside (ms : List HostMove) (r : Option Reply) (d : Nat) (s : State) : State :=
  { s with host := ms, reply := r, draws := d }

section fields

variable (s : State) (ms : List HostMove) (r : Option Reply) (d : Nat)

@[simp] theorem withOutside_crc : (withOutside ms r d s).crc = s.crc := rfl
@[simp] theorem withOutside_buf : (withOutside ms r d s).buf = s.buf := rfl
@[simp] theorem withOutside_len : (withOutside ms r d s).len = s.len := rfl
@[simp] theorem withOutside_op : (withOutside ms r d s).op = s.op := rfl
@[simp] theorem withOutside_idx : (withOutside ms r d s).idx = s.idx := rfl
@[simp] theorem withOutside_phase : (withOutside ms r d s).phase = s.phase := rfl
@[simp] theorem withOutside_done : (withOutside ms r d s).done = s.done := rfl
@[simp] theorem withOutside_cells : (withOutside ms r d s).cells = s.cells := rfl
@[simp] theorem withOutside_void : (withOutside ms r d s).void = s.void := rfl

end fields

/-- What a step has done to `s`. In each case `ms` are the host's moves still to come. -/
inductive StepEffect (s t : State) : Prop
  /-- The block does nothing: it is idle or stuck, or the host has read something. -/
  | quiet (ms : List HostMove) (r : Option Reply) (d : Nat) (ht : t = withOutside ms r d s)
  /-- `BYTE` (R103). -/
  | byte (ms : List HostMove) (b : Byte) (hp : s.phase = .run) (hlt : s.idx < s.len)
      (hb : HoldsByte s s.idx.toNat b) (ht : t = consumeByte b (withHost ms s))
  /-- `END` of `CRC16` (R104). -/
  | endCrc16 (ms : List HostMove) (hp : s.phase = .run) (heq : s.idx = s.len) (hop : s.op = 0#1)
      (ht : t = completeCall (withHost ms s))
  /-- `END` of `APPEND_CRC16` (R104). -/
  | endAppend (ms : List HostMove) (hp : s.phase = .run) (heq : s.idx = s.len) (hop : s.op = 1#1)
      (ht : t = setPhase .appLo (withHost ms s))
  /-- `APPLO` (R105). -/
  | appLo (ms : List HostMove) (hp : s.phase = .appLo) (hc : s.len.toNat < s.cells)
      (ht : t = setPhase .appHi (memWrite (withHost ms s) s.len.toNat (lowByte s.crc)))
  /-- `APPHI` (R106). -/
  | appHi (ms : List HostMove) (hp : s.phase = .appHi) (hc : s.len.toNat + 1 < s.cells)
      (ht : t = completeCall (memWrite (withHost ms s) (s.len.toNat + 1) (highByte s.crc)))
  /-- A whole `CRC16` call (R100). -/
  | callCrc16 (n : Word) (ms : List HostMove) (bs : List Byte)
      (hh : s.host = .call (encode (.crc16 n)) :: ms) (hp : s.phase = .idle)
      (hin : InputIs s n.toNat bs) (ht : t = finishCall 0#1 n (crc16 bs) (withHost ms s))
  /-- A whole `APPEND_CRC16` call (R101). -/
  | callAppend (n : Word) (ms : List HostMove) (bs : List Byte)
      (hh : s.host = .call (encode (.appendCrc16 n)) :: ms) (hp : s.phase = .idle)
      (hroom : HasRoom s n) (hin : InputIs s n.toNat bs)
      (ht : t = finishCall 1#1 n (crc16 bs) (appendChecksum n (crc16 bs) (withHost ms s)))
  /-- `START` (R102). -/
  | start (cmd : CmdWord) (ms : List HostMove) (hh : s.host = .start cmd :: ms) (hp : s.phase = .idle)
      (ht : t = latchCommand (decode cmd).op (decode cmd).len (withHost ms s))
  /-- A host write (R114). -/
  | write (a : Index) (b : Byte) (ms : List HostMove) (hh : s.host = .write a b :: ms)
      (hc : a.toNat < s.cells) (ht : t = memWrite (withHost ms s) a.toNat b)
  /-- `RESET` (R140). -/
  | reset (ms : List HostMove) (hh : s.host = .reset :: ms) (ht : t = resetMove (withHost ms s))

/-- The block's own step, on the state past a move of the host that leaves it to the block. -/
theorem StepEffect.of_blockStep {s t : State} (ms : List HostMove)
    (h : blockStep (withHost ms s) = .next t) : StepEffect s t := by
  obtain rfl | ⟨hp, hlt, b, hb, rfl⟩ | ⟨hp, heq, hop, rfl⟩ | ⟨hp, heq, hop, rfl⟩ | ⟨hp, hc, rfl⟩ |
    ⟨hp, hc, rfl⟩ := blockStep_next h
  · exact .quiet ms s.reply s.draws rfl
  · exact .byte ms b hp hlt hb rfl
  · exact .endCrc16 ms hp heq hop rfl
  · exact .endAppend ms hp heq hop rfl
  · exact .appLo ms hp hc rfl
  · exact .appHi ms hp hc rfl

/-- A whole call that is taken. -/
theorem StepEffect.of_exec {s t : State} {cmd : CmdWord} {ms : List HostMove}
    (hh : s.host = .call cmd :: ms) (hp : s.phase = .idle)
    (h : exec (decode cmd) (withHost ms s) = .next t) : StepEffect s t := by
  rw [← encode_decode cmd] at hh
  cases hi : decode cmd with
  | crc16 n =>
    rw [hi] at h hh
    obtain ⟨hbusy, -⟩ | ⟨-, bs, hin, rfl⟩ := execCrc16_next h
    · exact absurd hp hbusy
    · exact .callCrc16 n ms bs hh hp hin rfl
  | appendCrc16 n =>
    rw [hi] at h hh
    obtain ⟨hbusy, -⟩ | ⟨-, hroom, bs, hin, rfl⟩ := execAppendCrc16_next h
    · exact absurd hp hbusy
    · exact .callAppend n ms bs hh hp hroom hin rfl

/-- Every step that answers a next state has one of these effects. -/
theorem step_effect {s t : State} (h : step s = .next t) : StepEffect s t := by
  cases step_next h with
  | call cmd ms hh hp he => exact .of_exec hh hp he
  | block s' hs he =>
    obtain rfl | ⟨ms, -, rfl⟩ := hs
    · exact .of_blockStep s'.host he
    · exact .of_blockStep ms he
  | start cmd ms hh hp ht => exact .start cmd ms hh hp ht
  | get ms _ he =>
    obtain ⟨-, rfl⟩ | ⟨-, rfl⟩ := getMove_next he
    · exact .quiet ms _ s.draws rfl
    · exact .quiet ms _ (s.draws + 1) rfl
  | status ms _ ht => exact .quiet ms _ s.draws ht
  | read a ms _ he =>
    obtain ⟨rfl, -⟩ | ⟨b, -, rfl⟩ := hostRead_next he
    · exact .quiet ms _ (s.draws + 1) rfl
    · exact .quiet ms _ s.draws rfl
  | write a b ms hh he =>
    obtain ⟨hc, -, rfl⟩ := hostWrite_next he
    exact .write a b ms hh hc rfl
  | reset ms hh ht => exact .reset ms hh ht

end Sys2Proof.Machine
end

section
/-! The machine's invariant (R26, R28, R105, R151), part by part: what a write does to the buffer's, what
each effect of a step does to the sequencer's. -/

namespace Sys2Proof.Machine

/-- A write of a cell that exists keeps the buffer's part of the invariant. -/
theorem BufferOk.memWrite {s : State} (h : BufferOk s) {a : Nat} (ha : a < s.cells) (v : Byte) :
    BufferOk (memWrite s a v) := by
  obtain ⟨hwf, hin, hcells, hvoid⟩ := h
  obtain ⟨hwf', hvoid'⟩ := memWrite_wf hwf hvoid a v
  refine ⟨hwf', fun c hc => ?_, hcells, hvoid'⟩
  obtain rfl | hc := Memory.mem_set hc
  · exact ha
  · exact hin c hc

/-- So do the two stores of an append that has room. -/
theorem BufferOk.appendChecksum {s : State} (h : BufferOk s) {n : Word} (hroom : HasRoom s n)
    (c : Word) : BufferOk (appendChecksum n c s) := by
  refine (h.memWrite ?_ _).memWrite ?_ _
  · rw [lowIndex_toNat]
    exact Nat.lt_of_succ_lt hroom
  · rw [highIndex_toNat]
    exact hroom

/-- The list of cells with no value stays strictly rising in a `RESET`. -/
theorem voidAfterReset_sorted {s : State} (h : s.void.Pairwise (· < ·)) :
    (voidAfterReset s).Pairwise (· < ·) := by
  rw [voidAfterReset]
  split
  · exact markVoid_sorted (markVoid_sorted h _) _
  · exact h

/-- `BUF` keeps its canonical form, and its cells stay among those that exist. -/
theorem StepEffect.bufferOk {s t : State} (h : StepEffect s t) (hbuf : BufferOk s) : BufferOk t := by
  cases h with
  | quiet _ _ _ ht | byte _ _ _ _ _ ht | endCrc16 _ _ _ _ ht | endAppend _ _ _ _ ht
  | callCrc16 _ _ _ _ _ _ ht | start _ _ _ _ ht => rw [ht]; exact hbuf
  | appLo ms _ hc ht => rw [ht]; exact BufferOk.memWrite (s := withHost ms s) hbuf hc _
  | appHi ms _ hc ht => rw [ht]; exact BufferOk.memWrite (s := withHost ms s) hbuf hc _
  | callAppend _ ms _ _ _ hroom _ ht =>
    rw [ht]; exact BufferOk.appendChecksum (s := withHost ms s) hbuf hroom _
  | write _ _ ms _ hc ht => rw [ht]; exact BufferOk.memWrite (s := withHost ms s) hbuf hc _
  | reset ms _ ht =>
    rw [ht]
    obtain ⟨hwf, hin, hcells, hvoid⟩ := hbuf
    exact ⟨hwf, hin, hcells, voidAfterReset_sorted (s := withHost ms s) hvoid⟩

/-- R28, R151: with `done = 1` the block is idle, so `done` is 0 in every other phase. -/
theorem SequencerOk.done_eq_false {s : State} (h : SequencerOk s) (hp : s.phase ≠ .idle) :
    s.done = false := by
  obtain ⟨-, -, -, hdone⟩ := h
  exact Bool.eq_false_iff.2 fun hd => hp (hdone hd)

/-- R26: an idle state with all of its input consumed satisfies the sequencer's part. -/
theorem SequencerOk.of_idle {s : State} (hp : s.phase = .idle) (heq : s.idx = s.len) :
    SequencerOk s :=
  ⟨BitVec.le_of_eq heq, fun _ => heq, by simp [hp], fun _ => hp⟩

/-- The sequencer keeps its part of the invariant. -/
theorem StepEffect.sequencerOk {s t : State} (h : StepEffect s t) (hseq : SequencerOk s) :
    SequencerOk t := by
  have hbusy := hseq.done_eq_false
  obtain ⟨hle, heq, happ, hdone⟩ := hseq
  cases h with
  | quiet _ _ _ ht => rw [ht]; exact ⟨hle, heq, happ, hdone⟩
  | write _ _ _ _ _ ht => rw [ht]; exact ⟨hle, heq, happ, hdone⟩
  | byte _ b hp hlt _ ht =>
    have hnext : s.idx + 1#16 ≤ s.len := by
      rw [BitVec.le_def, toNat_add_one_of_lt hlt]
      exact hlt
    rw [ht]
    exact ⟨hnext, fun hne => absurd hp hne, happ, hdone⟩
  | endCrc16 _ _ heq' _ ht => rw [ht]; exact .of_idle rfl heq'
  | endAppend _ hp heq' hop ht =>
    rw [ht]
    exact ⟨hle, fun _ => heq', fun _ => hop, by simp [hbusy, hp]⟩
  | appLo _ hp _ ht =>
    rw [ht]
    exact ⟨hle, fun _ => heq (by simp [hp]), fun _ => happ (.inl hp), by simp [hbusy, hp]⟩
  | appHi _ hp _ ht => rw [ht]; exact .of_idle rfl (heq (by simp [hp]))
  | callCrc16 _ _ _ _ _ _ ht => rw [ht]; exact .of_idle rfl rfl
  | callAppend _ _ _ _ _ _ _ ht => rw [ht]; exact .of_idle rfl rfl
  | start _ _ _ _ ht => rw [ht]; exact ⟨Nat.zero_le _, by simp, by simp, by simp⟩
  | reset _ _ ht => rw [ht]; exact .of_idle rfl rfl

/-- Settles O44: each effect of a step keeps both parts of the invariant. -/
theorem invariantKeptByEveryStep : Obligations.InvariantKeptByEveryStep :=
  fun _ _ ⟨hbuf, hseq⟩ hstep =>
    ⟨(step_effect hstep).bufferOk hbuf, (step_effect hstep).sequencerOk hseq⟩

end Sys2Proof.Machine
end

section
/-! The accumulator as the checksum of the bytes consumed (R90, R103). -/

namespace Sys2Proof.Machine

/-- R90: with no byte consumed, the checksum is the start value. -/
theorem ConsumedPrefix.of_idx_zero {s : State} (hidx : s.idx = 0#16) (hcrc : s.crc = crcInit) :
    ConsumedPrefix s := by
  refine ⟨[], ⟨by rw [hidx]; rfl, fun i hi => ?_⟩, by rw [hcrc, crc16_nil]⟩
  rw [hidx] at hi
  exact absurd hi (Nat.not_lt_zero i)

/-- R90: a write of a cell that has not been consumed leaves the bytes that have. -/
theorem ConsumedPrefix.memWrite {s : State} (h : ConsumedPrefix s) {a : Nat}
    (ha : s.idx.toNat ≤ a) (v : Byte) : ConsumedPrefix (memWrite s a v) := by
  obtain ⟨bs, hin, hcrc⟩ := h
  refine ⟨bs, hin.of_holdsByte fun x b hx hold => ?_, hcrc⟩
  exact (holdsByte_memWrite_ne (Nat.ne_of_lt (Nat.lt_of_lt_of_le hx ha))).2 hold

/-- R101: an append leaves its own input. -/
theorem InputIs.appendChecksum {s : State} {n : Word} {bs : List Byte} (h : InputIs s n.toNat bs)
    (c : Word) : InputIs (appendChecksum n c s) n.toNat bs :=
  h.of_holdsByte fun _ _ ha hold => (holdsByte_appendChecksum_of_ne (by omega) (by omega)).2 hold

/-- Settles O45: `BYTE` consumes one byte more, the stores of an append lie above the input, a call ends
with the checksum of its whole input, and `START` and `RESET` begin with no byte. -/
theorem prefixChecksumKeptByEveryStep : Obligations.PrefixChecksumKeptByEveryStep := by
  rintro s t ⟨-, -, heq, -⟩ hcp hwrite hstep
  cases step_effect hstep with
  | quiet _ _ _ ht | endCrc16 _ _ _ _ ht | endAppend _ _ _ _ ht => rw [ht]; exact hcp
  | byte ms b _ hlt hb ht =>
    rw [ht]; exact ConsumedPrefix.consumeByte (s := withHost ms s) hcp hlt hb
  | appLo ms hp _ ht =>
    have hidx : s.idx = s.len := heq (by simp [hp])
    rw [ht]
    exact ConsumedPrefix.memWrite (s := withHost ms s) hcp (by simp [hidx]) _
  | appHi ms hp _ ht =>
    have hidx : s.idx = s.len := heq (by simp [hp])
    rw [ht]
    exact ConsumedPrefix.memWrite (s := withHost ms s) hcp (by simp [hidx]) _
  | callCrc16 _ _ bs _ _ hin ht => rw [ht]; exact ⟨bs, hin, rfl⟩
  | callAppend _ ms bs _ _ _ hin ht =>
    rw [ht]; exact ⟨bs, InputIs.appendChecksum (s := withHost ms s) hin _, rfl⟩
  | start _ _ _ _ ht => rw [ht]; exact .of_idx_zero rfl rfl
  | write a b ms hh _ ht =>
    rw [ht]; exact ConsumedPrefix.memWrite (s := withHost ms s) hcp (hwrite a b ms hh) b
  | reset _ _ ht => rw [ht]; exact .of_idx_zero rfl rfl

/-- Settles O6: at reset no cell is listed, nothing is consumed, and the block is idle. -/
theorem invariantsHoldAtReset : Obligations.InvariantsHoldAtReset :=
  ⟨⟨⟨reset_memory_wf, by simp [State.reset], by decide, .nil⟩, .of_idle rfl rfl⟩,
    .of_idx_zero rfl rfl⟩

end Sys2Proof.Machine
end

section
/-! The statements that compare a state with the next one, each read off the effect of the step (R22, R23,
R25, R28). -/

namespace Sys2Proof.Machine

/-- Settles O49: with `done = 1` the block is idle, so only a command or a `RESET` writes `crc` or
`done`. -/
theorem resultStableUntilNextStart : Obligations.ResultStableUntilNextStart := by
  rintro s t ⟨-, -, -, -, hdone⟩ hd hstep hcmd hreset
  have hidle : s.phase = .idle := hdone hd
  cases step_effect hstep with
  | quiet _ _ _ ht | write _ _ _ _ _ ht => rw [ht]; exact ⟨rfl, hd, hidle⟩
  | byte _ _ hp | endCrc16 _ hp | endAppend _ hp | appLo _ hp | appHi _ hp => simp [hidle] at hp
  | callCrc16 _ _ _ hh | callAppend _ _ _ hh => exact absurd hh (hcmd _ _).2
  | start _ _ hh => exact absurd hh (hcmd _ _).1
  | reset _ hh => exact absurd hh (hreset _)

/-- Settles O50: every effect but those that end or begin a call, and `RESET`, leaves `done`. -/
theorem doneWrittenOnlyByCalls : Obligations.DoneWrittenOnlyByCalls := by
  intro s t hstep
  cases step_effect hstep with
  | quiet _ _ _ ht | byte _ _ _ _ _ ht | endAppend _ _ _ _ ht | appLo _ _ _ ht
  | write _ _ _ _ _ ht =>
    have hsame : t.done = s.done := by rw [ht]; rfl
    simp +contextual [hsame]
  | endCrc16 _ hp heq hop ht =>
    exact ⟨fun _ _ => .inl ⟨hp, heq, hop⟩, fun _ ht0 => by simp [ht] at ht0⟩
  | appHi _ hp _ ht => exact ⟨fun _ _ => .inr (.inl hp), fun _ ht0 => by simp [ht] at ht0⟩
  | callCrc16 _ _ _ hh hp _ ht | callAppend _ _ _ hh hp _ _ ht =>
    exact ⟨fun _ _ => .inr (.inr ⟨hp, _, _, hh⟩), fun _ ht0 => by simp [ht] at ht0⟩
  | start _ _ hh hp ht => exact ⟨fun _ ht1 => by simp [ht] at ht1, fun _ _ => .inl ⟨hp, _, _, hh⟩⟩
  | reset _ hh ht => exact ⟨fun _ ht1 => by simp [ht] at ht1, fun _ _ => .inr ⟨_, hh⟩⟩

/-- A cell that reads otherwise after a write is the one written. -/
theorem eq_of_get?_set_ne {m : Memory} {a x : Nat} {v : Byte} (h : (m.set a v).get? x ≠ m.get? x) :
    x = a :=
  Decidable.by_contra fun hne => h (Memory.get?_set_ne m v hne)

/-- Settles O51: `BUF` is written by four effects only, each at the cells the statement names. -/
theorem cellsChangedOnlyByTheirWriters : Obligations.CellsChangedOnlyByTheirWriters := by
  intro s t a hstep hne
  cases step_effect hstep with
  | quiet _ _ _ ht | byte _ _ _ _ _ ht | endCrc16 _ _ _ _ ht | endAppend _ _ _ _ ht
  | callCrc16 _ _ _ _ _ _ ht | start _ _ _ _ ht | reset _ _ ht =>
    exact absurd (by rw [ht]; rfl) hne
  | write i b ms hh _ ht =>
    rw [ht] at hne
    exact .inl ⟨i, b, ms, hh, (eq_of_get?_set_ne hne).symm⟩
  | appLo _ hp _ ht =>
    rw [ht] at hne
    exact .inr (.inl ⟨hp, eq_of_get?_set_ne hne⟩)
  | appHi _ hp _ ht =>
    rw [ht] at hne
    exact .inr (.inr (.inl ⟨hp, eq_of_get?_set_ne hne⟩))
  | callAppend n ms _ hh hp _ _ ht =>
    refine .inr (.inr (.inr ⟨hp, n, ms, hh, Decidable.by_contra fun hnot => hne ?_⟩))
    obtain ⟨hlo, hhi⟩ := not_or.1 hnot
    rw [ht, finishCall_buf]
    exact appendChecksum_get?_of_ne hlo hhi

/-- Settles O52: no effect writes `cells`, and those that write `len` or `op` are `RESET` and the ones an
idle block takes. -/
theorem latchesConstantDuringCall : Obligations.LatchesConstantDuringCall := by
  intro s t hstep
  cases step_effect hstep with
  | quiet _ _ _ ht | byte _ _ _ _ _ ht | endCrc16 _ _ _ _ ht | endAppend _ _ _ _ ht
  | appLo _ _ _ ht | appHi _ _ _ ht | write _ _ _ _ _ ht =>
    rw [ht]; exact ⟨rfl, fun _ _ => ⟨rfl, rfl⟩⟩
  | callCrc16 _ _ _ _ hp _ ht | callAppend _ _ _ _ hp _ _ ht | start _ _ _ hp ht =>
    rw [ht]; exact ⟨rfl, fun hbusy => absurd hp hbusy⟩
  | reset _ hh ht => rw [ht]; exact ⟨rfl, fun _ hreset => absurd hh (hreset _)⟩

end Sys2Proof.Machine
end

section
/-! What `step` does with each next move of the host, one equation a move, and the statements about the
moves (R102, R107, R114, R127, R140). -/

namespace Sys2Proof.Machine

variable {s : State} {ms : List HostMove}

/-! ### One equation for each move -/

theorem step_noMove (hh : s.host = []) : step s = blockStep s := by
  simp only [step, nextCall, otherStep, hh]

theorem step_wait (hh : s.host = .wait :: ms) : step s = blockStep (withHost ms s) := by
  simp only [step, nextCall, otherStep, hh]

theorem step_read {a : Index} (hh : s.host = .read a :: ms) :
    step s = hostRead a (withHost ms s) := by
  simp only [step, nextCall, otherStep, hh]

theorem step_write {a : Index} {b : Byte} (hh : s.host = .write a b :: ms) :
    step s = hostWrite a b (withHost ms s) := by
  simp only [step, nextCall, otherStep, hh]

theorem step_status (hh : s.host = .status :: ms) : step s = statusMove (withHost ms s) := by
  simp only [step, nextCall, otherStep, hh]

theorem step_get (hh : s.host = .get :: ms) : step s = getMove (withHost ms s) := by
  simp only [step, nextCall, otherStep, hh]

theorem step_reset (hh : s.host = .reset :: ms) : step s = .next (resetMove (withHost ms s)) := by
  simp only [step, nextCall, otherStep, hh]

/-- R102: an idle block takes a whole call. -/
theorem step_call_of_idle {cmd : CmdWord} (hh : s.host = .call cmd :: ms) (hp : s.phase = .idle) :
    step s = exec (decode cmd) (withHost ms s) := by
  simp [step, nextCall, hh, (busy_eq_false_iff s).2 hp]

/-- R102: an idle block takes a `START`. -/
theorem step_start_of_idle {cmd : CmdWord} (hh : s.host = .start cmd :: ms) (hp : s.phase = .idle) :
    step s = .next (latchCommand (decode cmd).op (decode cmd).len (withHost ms s)) := by
  simp [step, nextCall, otherStep, startMove, hh, (busy_eq_false_iff s).2 hp]

/-- R127: a busy block takes no command, and goes on with its call. -/
theorem step_command_of_busy {cmd : CmdWord}
    (hh : s.host = .start cmd :: ms ∨ s.host = .call cmd :: ms) (hp : s.phase ≠ .idle) :
    step s = blockStep s := by
  obtain hh | hh := hh <;> simp [step, nextCall, otherStep, hh, (busy_eq_true_iff s).2 hp]

/-! ### Commands -/

/-- R61: a number the opcode table's decoder reads is presented as the word it decodes. -/
theorem withFetchWord_of_decodeTableWord {nbits w : Nat} {i : Instr}
    (h : decodeTableWord nbits w = some i) (s : State) :
    ∃ cmd, decode cmd = i ∧
      s.withFetchWord nbits w = withHost (.call cmd :: s.host) (setPhase .idle s) := by
  rw [decodeTableWord, decodeNumber] at h
  rw [State.withFetchWord, presentWord]
  cases hw : commandWord (w % 2 ^ nbits) with
  | ok cmd =>
    rw [hw] at h
    exact ⟨cmd, Option.some.inj h, rfl⟩
  | error r =>
    rw [hw] at h
    cases h

/-- Settles O8: an idle block takes the call, and `withFetchWord` presents one to an idle block. -/
theorem stepRunsPresentedCommand : Obligations.StepRunsPresentedCommand := by
  refine ⟨fun s w ms hp hh => step_call_of_idle hh hp, fun s nbits w i h => ?_⟩
  obtain ⟨cmd, rfl, hfetch⟩ := withFetchWord_of_decodeTableWord h s
  rw [hfetch]
  exact step_call_of_idle rfl rfl

/-- Settles O9: the equations of the five moves. -/
theorem stepMakesTheNextMove : Obligations.StepMakesTheNextMove :=
  fun _ _ => ⟨step_noMove, step_wait, fun _ => step_read, fun _ _ => step_write, step_status⟩

/-- R127: a command has no effect on a busy block. -/
theorem exec_of_busy (i : Instr) (hp : s.phase ≠ .idle) : exec i s = .next s := by
  have hbusy := (busy_eq_true_iff s).2 hp
  cases i with
  | crc16 n => exact if_pos hbusy
  | appendCrc16 n => exact if_pos hbusy

/-- No step of the block takes a move from the host. -/
theorem blockStep_next_host {t : State} (h : blockStep s = .next t) : t.host = s.host := by
  obtain rfl | ⟨-, -, b, -, rfl⟩ | ⟨-, -, -, rfl⟩ | ⟨-, -, -, rfl⟩ | ⟨-, -, rfl⟩ | ⟨-, -, rfl⟩ :=
    blockStep_next h <;> rfl

/-- Settles O10: a busy block takes no command, and its own step leaves the host's list. -/
theorem busyCommandNotTaken : Obligations.BusyCommandNotTaken := by
  refine fun s i w ms hp => ⟨exec_of_busy i hp, (busy_eq_true_iff s).2 hp, fun hh => ?_⟩
  have hstep := step_command_of_busy hh hp
  exact ⟨hstep, fun t ht => blockStep_next_host (hstep ▸ ht)⟩

/-- R61: the word of an operation and a length decodes to a command with these. -/
theorem decode_append_fields (o : OpBit) (n : Word) :
    (decode (o ++ n)).op = o ∧ (decode (o ++ n)).len = n := by
  obtain ⟨hop, hlen⟩ := decode_op_len (o ++ n)
  obtain ⟨hop', hlen'⟩ := Laws.EncodedFields.fields o n
  exact ⟨hop.trans hop', hlen.trans hlen'⟩

/-- Settles O31: `START` latches the fields its word decodes to. -/
theorem startLatchesCommand : Obligations.StartLatchesCommand := by
  refine fun s o n ms hh => ⟨fun hp => ?_, fun hp => step_command_of_busy (.inl hh) hp⟩
  obtain ⟨hop, hlen⟩ := decode_append_fields o n
  rw [step_start_of_idle hh hp, hop, hlen]
  rfl

/-! ### `GET` and `RESET` -/

/-- R32, U6: `GET` without a result draws a free value. -/
theorem step_get_of_not_done (hh : s.host = .get :: ms) (hd : s.done = false) :
    step s = .next (drawFree (answer (.result (Config.freeWord s.draws)) (withHost ms s))) := by
  simp [step_get hh, getMove, crcOut, hd]

/-- Settles O39: the free value drawn is the one of that number. -/
theorem getWithoutResultIsFree : Obligations.GetWithoutResultIsFree :=
  fun _ _ => step_get_of_not_done

@[simp] theorem appending_iff (s : State) : appending s = true ↔ s.phase ≠ .idle ∧ s.op = 1#1 := by
  simp [appending]

/-- R140, U12: the cells with no value after a `RESET` are those before it and the two of an append it
cuts. -/
theorem mem_voidAfterReset (s : State) (a : Nat) :
    a ∈ voidAfterReset s ↔
      a ∈ s.void ∨ (s.phase ≠ .idle ∧ s.op = 1#1 ∧ (a = s.len.toNat ∨ a = s.len.toNat + 1)) := by
  rw [voidAfterReset]
  by_cases happ : s.phase ≠ .idle ∧ s.op = 1#1
  · rw [if_pos ((appending_iff s).2 happ), mem_markVoid, mem_markVoid, lowIndex_toNat, highIndex_toNat]
    tauto
  · rw [if_neg (by rwa [appending_iff])]
    tauto

/-- Settles O7: the registers are `resetMove`'s, and the cells with no value those of
`voidAfterReset`. -/
theorem resetFromEveryState : Obligations.ResetFromEveryState :=
  fun s ms hh => ⟨_, step_reset hh, rfl, rfl, rfl, rfl, rfl, rfl, rfl, rfl, rfl, rfl, rfl,
    mem_voidAfterReset (withHost ms s)⟩

end Sys2Proof.Machine
end

section
/-! The buffer at the host's side and at the block's: reads and writes, where they stop, and where the
block's step stops or is stuck (R35, R43, R49, R122, R142, R144). -/

namespace Sys2Proof.Machine

/-! ### Reading and writing cells -/

/-- R35: whether and how a read of a cell stops depends on that cell alone. -/
theorem memRead_congr {s t : State} {a : Nat} (hcells : t.cells = s.cells)
    (hvoid : a ∈ t.void ↔ a ∈ s.void) (hget : t.buf.get? a = s.buf.get? a) :
    memRead t a = memRead s a := by
  rw [memRead, memRead, cellExists, cellExists, hcells, hget, if_congr hvoid rfl rfl]

/-- Settles O43: the written cell holds the byte, and the others are as they were. -/
theorem readAfterWrite : Obligations.ReadAfterWrite := by
  refine fun s a x v ha => ⟨memRead_ok_iff.2 (holdsByte_memWrite_eq ha), fun hne => ?_⟩
  obtain ⟨hget, hvoid⟩ := memWrite_frame s v hne
  exact memRead_congr rfl hvoid hget

/-- R35: a cell that exists and holds no byte stops a read. -/
theorem memRead_of_noValue {s : State} {a : Nat} (hc : a < s.cells) (hno : ¬ ∃ b, HoldsByte s a b) :
    memRead s a = .error .cellHoldsNoValue := by
  obtain ⟨f, hf⟩ := memRead_error_iff.2 hno
  obtain ⟨-, hnc⟩ | ⟨rfl, -⟩ := memRead_error hf
  · exact absurd hc hnc
  · exact hf

/-- R122: a cell that does not exist stops a read. -/
theorem memRead_of_noCell {s : State} {a : Nat} (hc : s.cells ≤ a) :
    memRead s a = .error .noSuchCell := by
  rw [memRead, if_neg (by simpa using hc)]

/-! ### Where the block's own step stops or is stuck -/

/-- R35: `BYTE` stops as the read of its cell does. -/
theorem blockStep_byte_error {s : State} {f : Fault} (hp : s.phase = .run) (hlt : s.idx < s.len)
    (hf : memRead s s.idx.toNat = .error f) : blockStep s = .fault f := by
  simp only [blockStep, hp, if_pos hlt, byteStep, byteIndex_toNat, hf]

/-- R144: `APPLO` is stuck where its cell does not exist. -/
theorem blockStep_appLo_stuck {s : State} (hp : s.phase = .appLo) (hc : s.cells ≤ s.len.toNat) :
    blockStep s = .next s := by
  have hno : ¬ cellExists s (lowIndex s.len).toNat = true := by simpa using hc
  simp only [blockStep, hp, appLoStep, if_neg hno]

/-- R144: `APPHI` is stuck where its cell does not exist. -/
theorem blockStep_appHi_stuck {s : State} (hp : s.phase = .appHi) (hc : s.cells ≤ s.len.toNat + 1) :
    blockStep s = .next s := by
  have hno : ¬ cellExists s (highIndex s.len).toNat = true := by simpa using hc
  simp only [blockStep, hp, appHiStep, if_neg hno]

/-- Settles O36: `BYTE` stops where its read does; `APPLO` and `APPHI` are stuck. -/
theorem blockStopsOnMissingCells : Obligations.BlockStopsOnMissingCells :=
  fun _ => ⟨fun hp hlt hc => blockStep_byte_error hp hlt (memRead_of_noCell hc),
    fun hp hlt hc hno => blockStep_byte_error hp hlt (memRead_of_noValue hc hno),
    blockStep_appLo_stuck, blockStep_appHi_stuck⟩

/-! ### The host's reads and writes -/

/-- R47: the two cells of an append, as numbers. -/
@[simp] theorem isOutputCell_iff (a : Index) (s : State) :
    isOutputCell a s = true ↔ a.toNat = s.len.toNat ∨ a.toNat = s.len.toNat + 1 := by
  simp [isOutputCell, BitVec.toNat_eq]

/-- The cell is one of the two that an append in progress writes (R47, R114, R143). -/
def IsRunningOutput (s : State) (a : Index) : Prop :=
  s.phase ≠ .idle ∧ s.op = 1#1 ∧ (a.toNat = s.len.toNat ∨ a.toNat = s.len.toNat + 1)

theorem appending_isOutputCell_iff (s : State) (a : Index) :
    (appending s && isOutputCell a s) = true ↔ IsRunningOutput s a := by
  rw [Bool.and_eq_true, appending_iff, isOutputCell_iff, and_assoc]; rfl

/-- A host access of a cell that does not exist. -/
theorem hostRead_of_noCell {s : State} {a : Index} (hc : s.cells ≤ a.toNat) :
    hostRead a s = .fault .noSuchCell := by
  rw [hostRead, if_neg (by simpa using hc)]

/-- U7, U12: the cells of an append in progress or cut short answer a free value. -/
theorem hostRead_free {s : State} {a : Index} (hc : a.toNat < s.cells)
    (hfree : IsRunningOutput s a ∨ a.toNat ∈ s.void) :
    hostRead a s = .next (drawFree (answer (.cell (Config.freeByte s.draws)) s)) := by
  rw [hostRead, if_pos (by simpa using hc), if_pos]
  rwa [Bool.or_eq_true, appending_isOutputCell_iff, decide_eq_true_iff]

/-- R35: every other cell that exists is read as it is listed. -/
theorem hostRead_listed {s : State} {a : Index} (hc : a.toNat < s.cells)
    (hrun : ¬ IsRunningOutput s a) (hvoid : a.toNat ∉ s.void) :
    hostRead a s = (s.buf.get? a.toNat).elim (.fault .cellHoldsNoValue)
      fun b => .next (answer (.cell b) s) := by
  rw [hostRead, if_pos (by simpa using hc), if_neg]
  · cases s.buf.get? a.toNat <;> rfl
  · rw [Bool.or_eq_true, appending_isOutputCell_iff, decide_eq_true_iff]
    exact not_or.2 ⟨hrun, hvoid⟩

/-- Settles O40: the two ways a host read answers. -/
theorem hostReadAnswersCell : Obligations.HostReadAnswersCell := by
  refine fun s a hc => ⟨fun hrun => hostRead_free hc (.inl hrun),
    fun hvoid => hostRead_free hc (.inr hvoid), fun b ⟨_, hvoid, hget⟩ hrun => ?_⟩
  rw [hostRead_listed hc hrun hvoid, hget]
  rfl

theorem hostWrite_of_noCell {s : State} {a : Index} (b : Byte) (hc : s.cells ≤ a.toNat) :
    hostWrite a b s = .fault .noSuchCell := by
  rw [hostWrite, if_neg (by simpa using hc)]

/-- R49, R114: the cells of an append in progress are not the host's to write. -/
theorem hostWrite_refused {s : State} {a : Index} (b : Byte) (hc : a.toNat < s.cells)
    (hrun : IsRunningOutput s a) : hostWrite a b s = .refused .hostWritesOutputDuringCall := by
  rw [hostWrite, if_pos (by simpa using hc), if_pos ((appending_isOutputCell_iff s a).2 hrun)]

/-- R142: every other cell that exists takes the byte. -/
theorem hostWrite_taken {s : State} {a : Index} (b : Byte) (hc : a.toNat < s.cells)
    (hrun : ¬ IsRunningOutput s a) : hostWrite a b s = .next (memWrite s a.toNat b) := by
  rw [hostWrite, if_pos (by simpa using hc), if_neg (by rwa [appending_isOutputCell_iff])]

/-- Settles O41: the write changes one cell, and `BYTE` reads the cell as it then is. -/
theorem hostWriteSeenByByte : Obligations.HostWriteSeenByByte := by
  intro s a b hc hrun
  have hold : HoldsByte (memWrite s a.toNat b) a.toNat b := holdsByte_memWrite_eq hc
  refine ⟨_, hostWrite_taken b hc hrun, hold, fun x hx => memWrite_frame s b hx,
    ⟨rfl, rfl, rfl, rfl, rfl, rfl⟩, ⟨rfl, rfl, rfl, rfl⟩, fun hp hlt hidx => ?_⟩
  exact blockStep_byte (s := memWrite s a.toNat b) hp hlt (by rwa [memWrite_idx, hidx])

/-- Where a host read stops, and by what name. -/
theorem hostRead_fault_iff (s : State) (a : Index) (f : Fault) :
    hostRead a s = .fault f ↔
      (f = .noSuchCell ∧ s.cells ≤ a.toNat) ∨
      (f = .cellHoldsNoValue ∧ a.toNat < s.cells ∧ s.buf.get? a.toNat = none ∧ a.toNat ∉ s.void ∧
        ¬ IsRunningOutput s a) := by
  by_cases hc : a.toNat < s.cells
  · by_cases hfree : IsRunningOutput s a ∨ a.toNat ∈ s.void
    · rw [hostRead_free hc hfree]
      refine ⟨(fun h => nomatch h), ?_⟩
      rintro (⟨-, hno⟩ | ⟨-, -, -, hvoid, hrun⟩)
      · exact absurd hc (Nat.not_lt.2 hno)
      · exact absurd hfree (not_or.2 ⟨hrun, hvoid⟩)
    · obtain ⟨hrun, hvoid⟩ := not_or.1 hfree
      rw [hostRead_listed hc hrun hvoid]
      cases s.buf.get? a.toNat <;> simp [hc, hrun, hvoid, eq_comm]
  · simp [hostRead_of_noCell (Nat.not_lt.1 hc), hc, Nat.not_lt.1 hc, eq_comm]

/-- A host read is never refused. -/
theorem hostRead_ne_refused (s : State) (a : Index) (r : Refusal) : hostRead a s ≠ .refused r := by
  by_cases hc : a.toNat < s.cells
  · by_cases hfree : IsRunningOutput s a ∨ a.toNat ∈ s.void
    · simp [hostRead_free hc hfree]
    · obtain ⟨hrun, hvoid⟩ := not_or.1 hfree
      rw [hostRead_listed hc hrun hvoid]
      cases s.buf.get? a.toNat <;> simp
  · simp [hostRead_of_noCell (Nat.not_lt.1 hc)]

/-- Where a host write stops. -/
theorem hostWrite_stops_iff (s : State) (a : Index) (b : Byte) :
    (∀ f, hostWrite a b s = .fault f ↔ f = .noSuchCell ∧ s.cells ≤ a.toNat) ∧
    (∀ r, hostWrite a b s = .refused r ↔
      r = .hostWritesOutputDuringCall ∧ a.toNat < s.cells ∧ IsRunningOutput s a) := by
  by_cases hc : a.toNat < s.cells
  · by_cases hrun : IsRunningOutput s a
    · simp [hostWrite_refused b hc hrun, hc, hrun, eq_comm]
    · simp [hostWrite_taken b hc hrun, hc, hrun]
  · simp [hostWrite_of_noCell b (Nat.not_lt.1 hc), hc, Nat.not_lt.1 hc, eq_comm]

/-- Settles O42: the stops of the two moves, by the cell's place. -/
theorem hostMovesStopByName : Obligations.HostMovesStopByName :=
  fun s a b => ⟨hostRead_fault_iff s a, hostRead_ne_refused s a, hostWrite_stops_iff s a b⟩

end Sys2Proof.Machine
end

section
/-! The datapath bit by bit: `BITSTEP` and its inverse, linearity, the table form of `UPD`, and what they
say of checksums (R83, R84, R89, R92). -/

namespace Sys2Proof.Machine

/-! ### `BITSTEP` bit by bit -/

/-- R83: each bit is the one above it, and the constant's bits enter where bit 0 was set. -/
theorem getLsbD_bitstep (c : Word) (i : Nat) :
    (bitstep c).getLsbD i = (c.getLsbD (i + 1) ^^ (c.getLsbD 0 && poly.getLsbD i)) := by
  rw [bitstep, Nat.add_comm]
  cases c.getLsbD 0 <;> simp

/-- R83: bit 0 of the inverse is bit 15, which alone says whether the constant was applied. -/
theorem getLsbD_bitstepInv_zero (n : Word) : (bitstepInv n).getLsbD 0 = n.getLsbD 15 := by
  rw [bitstepInv, BitVec.getLsbD_append]
  simp

/-- R83: every other bit of the inverse is the one below it, with the constant taken off. -/
theorem getLsbD_bitstepInv_succ (n : Word) {i : Nat} (hi : i < 15) :
    (bitstepInv n).getLsbD (i + 1) = (n.getLsbD i ^^ (n.getLsbD 15 && poly.getLsbD i)) := by
  rw [bitstepInv, BitVec.getLsbD_append]
  cases n.getLsbD 15 <;> simp [hi]

/-- R83: bit 15 of the next value is bit 0 of the last. -/
theorem getLsbD_bitstep_top (c : Word) : (bitstep c).getLsbD 15 = c.getLsbD 0 := by
  have hpoly : poly.getLsbD 15 = true := by decide
  rw [getLsbD_bitstep, hpoly, BitVec.getLsbD_of_ge c 16 (by decide)]
  simp

/-- R83: the inverse undoes the step. -/
theorem bitstepInv_bitstep (c : Word) : bitstepInv (bitstep c) = c := by
  apply BitVec.eq_of_getLsbD_eq
  intro i hi
  cases i with
  | zero => rw [getLsbD_bitstepInv_zero, getLsbD_bitstep_top]
  | succ i =>
    rw [getLsbD_bitstepInv_succ _ (by omega), getLsbD_bitstep_top, getLsbD_bitstep]
    simp

/-- R83: the step undoes the inverse. -/
theorem bitstep_bitstepInv (n : Word) : bitstep (bitstepInv n) = n := by
  apply BitVec.eq_of_getLsbD_eq
  intro i hi
  obtain hi | rfl : i < 15 ∨ i = 15 := by omega
  · rw [getLsbD_bitstep, getLsbD_bitstepInv_succ _ hi, getLsbD_bitstepInv_zero]
    simp
  · rw [getLsbD_bitstep_top, getLsbD_bitstepInv_zero]

/-- R80: the constant's bits from 1 to 12 are clear. -/
theorem getLsbD_poly_middle {i : Nat} (h1 : 1 ≤ i) (h12 : i ≤ 12) : poly.getLsbD i = false := by
  have hall : ∀ j : Fin 13, 1 ≤ j.val → poly.getLsbD j.val = false := by decide
  exact hall ⟨i, by omega⟩ h1

/-- Settles O13: the bits of the constant at each place, and the inverse bit by bit. -/
theorem bitstepBitByBit : Obligations.BitstepBitByBit := by
  intro c
  refine ⟨getLsbD_bitstep_top c, ?_, ?_, fun i h1 h12 => ?_, ?_, bitstepInv_bitstep c,
    bitstep_bitstepInv c⟩
  · rw [getLsbD_bitstep, show poly.getLsbD 14 = false from rfl, Bool.and_false, Bool.xor_false]
  · rw [getLsbD_bitstep, show poly.getLsbD 13 = true from rfl, Bool.and_true]
  · rw [getLsbD_bitstep, getLsbD_poly_middle h1 h12, Bool.and_false, Bool.xor_false]
  · rw [getLsbD_bitstep, show poly.getLsbD 0 = true from rfl, Bool.and_true]

/-! ### Linearity -/

/-- R92 (a): `BITSTEP` is linear, since each of its bits is a sum of bits. -/
theorem bitstep_xor (x y : Word) : bitstep (x ^^^ y) = bitstep x ^^^ bitstep y := by
  apply BitVec.eq_of_getLsbD_eq
  intro i _
  simp only [BitVec.getLsbD_xor, getLsbD_bitstep, Bool.and_xor_distrib_right, Bool.xor_assoc,
    Bool.xor_left_comm]

/-- R92 (a): so are its iterates. -/
theorem bitsteps_xor (k : Nat) (x y : Word) :
    bitsteps k (x ^^^ y) = bitsteps k x ^^^ bitsteps k y := by
  induction k generalizing x y with
  | zero => rfl
  | succ k ih => rw [bitsteps_succ, bitstep_xor, ih, bitsteps_succ, bitsteps_succ]

/-- R82: so is `XORB`, in both arguments. -/
theorem xorb_xor (x y : Word) (a b : Byte) : xorb (x ^^^ y) (a ^^^ b) = xorb x a ^^^ xorb y b := by
  simp only [xorb_eq_xor, BitVec.setWidth_xor]
  ac_rfl

/-- R92 (a): so is `UPD`, in both arguments. -/
theorem upd_xor (x y : Word) (a b : Byte) : upd (x ^^^ y) (a ^^^ b) = upd x a ^^^ upd y b := by
  rw [upd, xorb_xor, bitsteps_xor, upd, upd]

/-- Settles O16: linearity, and a pair as the sum of its two arguments. -/
theorem updIsLinear : Obligations.UpdIsLinear := by
  refine ⟨bitstep_xor, upd_xor, fun c b => ?_⟩
  have hsum := upd_xor c 0#16 0#8 b
  rwa [BitVec.xor_zero, BitVec.zero_xor] at hsum

/-! ### The table form -/

/-- R10: a byte widened by zeros is a high byte of zeros and the byte. -/
theorem setWidth_eq_zero_append (b : Byte) : b.setWidth 16 = 0#8 ++ b :=
  BitVec.setWidth_eq_append (by decide)

/-- R83: as long as the bit tested is clear, `BITSTEP` is a shift. -/
theorem bitsteps_eq_ushiftRight {k : Nat} {c : Word} (h : ∀ i, i < k → c.getLsbD i = false) :
    bitsteps k c = c >>> k := by
  induction k generalizing c with
  | zero => exact (BitVec.ushiftRight_zero c).symm
  | succ k ih =>
    have hstep : bitstep c = c >>> 1 := if_neg (by rw [h 0 (Nat.succ_pos k)]; decide)
    have hrest : ∀ i, i < k → (c >>> 1).getLsbD i = false := fun i hi => by
      rw [BitVec.getLsbD_ushiftRight, Nat.add_comm]
      exact h (i + 1) (Nat.succ_lt_succ hi)
    rw [bitsteps_succ, hstep, ih hrest, ← BitVec.shiftRight_add, Nat.add_comm]

/-- R92 (b): eight shifts take the high byte to the low one, where it meets no test. -/
theorem bitsteps_eight_highByte (h : Byte) : bitsteps 8 (h ++ 0#8) = h.setWidth 16 := by
  have hlow : ∀ i, i < 8 → (h ++ 0#8 : Word).getLsbD i = false := fun i hi => by
    rw [BitVec.getLsbD_append]
    simp [hi]
  rw [bitsteps_eq_ushiftRight hlow]
  apply BitVec.eq_of_getLsbD_eq
  intro i hi
  rw [BitVec.getLsbD_ushiftRight, BitVec.getLsbD_append, BitVec.getLsbD_setWidth]
  simp [hi]

/-- R92 (b): `UPD` by a table of the 256 values on the zero accumulator. -/
theorem upd_eq_table (c : Word) (b : Byte) :
    upd c b = (highByte c).setWidth 16 ^^^ upd 0#16 (lowByte c ^^^ b) := by
  have hxorb : xorb c b = (highByte c ++ 0#8) ^^^ xorb 0#16 (lowByte c ^^^ b) := by
    have hzero : xorb 0#16 (lowByte c ^^^ b) = 0#8 ++ (lowByte c ^^^ b) := by
      rw [xorb_eq_xor, BitVec.zero_xor, setWidth_eq_zero_append]
    rw [hzero, BitVec.xor_append, BitVec.xor_zero, BitVec.zero_xor, xorb]
  rw [upd, hxorb, bitsteps_xor, bitsteps_eight_highByte, ← upd]

/-- Settles O17: the high byte is shifted down, and the low byte with the input byte is looked up. -/
theorem updByTable : Obligations.UpdByTable := upd_eq_table

/-! ### The zero residue -/

/-- R92 (c): the table's entry 0 is 0, so a byte equal to the low byte leaves the high byte alone. -/
theorem upd_lowByte (c : Word) : upd c (lowByte c) = (highByte c).setWidth 16 := by
  have hzero : upd 0#16 0#8 = 0#16 := by decide
  rw [upd_eq_table, BitVec.xor_self, hzero, BitVec.xor_zero]

/-- R10: a byte widened by zeros, read as two bytes. -/
theorem bytes_setWidth (b : Byte) :
    highByte (b.setWidth 16) = 0#8 ∧ lowByte (b.setWidth 16) = b := by
  rw [setWidth_eq_zero_append]
  exact ⟨highByte_append 0#8 b, lowByte_append 0#8 b⟩

/-- R92 (c): `UPD` of an accumulator by its own two bytes, low first, gives zero. -/
theorem upd_lowByte_highByte (c : Word) : upd (upd c (lowByte c)) (highByte c) = 0#16 := by
  obtain ⟨hhigh, hlow⟩ := bytes_setWidth (highByte c)
  have hclear := upd_lowByte ((highByte c).setWidth 16)
  rw [hhigh, hlow] at hclear
  rw [upd_lowByte, hclear]
  rfl

/-- Settles O18: the two bytes clear the accumulator. -/
theorem appendedChecksumHasZeroResidue : Obligations.AppendedChecksumHasZeroResidue := by
  intro bs
  have hsplit : bs ++ [lowByte (crc16 bs), highByte (crc16 bs)] =
      (bs ++ [lowByte (crc16 bs)]) ++ [highByte (crc16 bs)] := by simp
  rw [hsplit, crc16_snoc, crc16_snoc, upd_lowByte_highByte]

/-! ### Invertibility -/

/-- R83: `BITSTEP` has an inverse. -/
theorem bitstep_bijective : Function.Bijective bitstep :=
  Function.bijective_iff_has_inverse.2 ⟨bitstepInv, bitstepInv_bitstep, bitstep_bitstepInv⟩

/-- R92 (d): so have its iterates. -/
theorem bitsteps_bijective (k : Nat) : Function.Bijective (bitsteps k) := by
  rw [funext (bitsteps_eq_iterate k)]
  exact bitstep_bijective.iterate k

/-- R82: `XORB` of a byte is its own inverse. -/
theorem xorb_involutive (b : Byte) : Function.Involutive fun c => xorb c b := fun c => by
  simp only [xorb_eq_xor, BitVec.xor_assoc, BitVec.xor_self, BitVec.xor_zero]

/-- R92 (d): for a fixed byte, `UPD` is a bijection. -/
theorem upd_bijective (b : Byte) : Function.Bijective fun c => upd c b :=
  (bitsteps_bijective 8).comp (xorb_involutive b).bijective

/-- R84: `UPD` loses nothing of what `XORB` gives. -/
theorem xorb_eq_of_upd_eq {c c' : Word} {b b' : Byte} (h : upd c b = upd c' b') :
    xorb c b = xorb c' b' :=
  (bitsteps_bijective 8).injective h

/-- R89: for a fixed accumulator, `UPD` is one-to-one in the byte. -/
theorem upd_injective_byte (c : Word) : Function.Injective fun b => upd c b := by
  intro b b' h
  have hlow := congrArg lowByte (xorb_eq_of_upd_eq h)
  rwa [lowByte_xorb, lowByte_xorb, BitVec.xor_right_inj] at hlow

/-- Settles O19: `UPD` is one-to-one in each argument, and onto in the accumulator. -/
theorem updIsInvertible : Obligations.UpdIsInvertible :=
  ⟨upd_bijective, upd_injective_byte⟩

/-! ### Checksums of one and of two bytes -/

/-- R89: a table entry whose high byte is 0 is entry 0. Run backwards, the eight steps from such an entry
are shifts, which leave the low byte of where they began 0. -/
theorem eq_zero_of_highByte_upd {k : Byte} (h : highByte (upd 0#16 k) = 0#8) : k = 0#8 := by
  have hback : upd 0#16 k = bitsteps 8 (lowByte (upd 0#16 k) ++ 0#8) := by
    rw [bitsteps_eight_highByte, setWidth_eq_zero_append, ← h, highByte_append_lowByte]
  have hlow := congrArg lowByte ((bitsteps_bijective 8).injective hback)
  rwa [lowByte_xorb, lowByte_append, show lowByte 0#16 = 0#8 from rfl, BitVec.zero_xor] at hlow

/-- R89: for a fixed accumulator, the high byte of `UPD` already tells the byte. -/
theorem eq_of_highByte_upd {c : Word} {a b : Byte} (h : highByte (upd c a) = highByte (upd c b)) :
    a = b := by
  have hsum : upd c a ^^^ upd c b = upd 0#16 (a ^^^ b) := by
    rw [← upd_xor, BitVec.xor_self]
  have hhigh : highByte (upd 0#16 (a ^^^ b)) = 0#8 := by
    rw [← hsum, highByte, BitVec.extractLsb'_xor, ← highByte, ← highByte, h, BitVec.xor_self]
  exact BitVec.xor_eq_zero_iff.1 (eq_zero_of_highByte_upd hhigh)

/-- R89: two `UPD`s from the same accumulator tell both bytes. -/
theorem eq_of_upd_upd_eq {c₀ : Word} {a b c d : Byte} (h : upd (upd c₀ a) b = upd (upd c₀ c) d) :
    a = c ∧ b = d := by
  have hxorb := congrArg highByte (xorb_eq_of_upd_eq h)
  rw [highByte_xorb, highByte_xorb] at hxorb
  obtain rfl : a = c := eq_of_highByte_upd hxorb
  exact ⟨rfl, upd_injective_byte _ h⟩

/-- Settles O20: one byte by `UPD`'s own injectivity, two by the high byte after the first. -/
theorem shortChecksumsAreDistinct : Obligations.ShortChecksumsAreDistinct :=
  ⟨fun _ _ h => upd_injective_byte crcInit h, fun _ _ _ _ h => eq_of_upd_upd_eq (c₀ := crcInit) h,
    fun _ _ hne h => hne (eq_of_upd_upd_eq (c₀ := crcInit) h).1⟩

end Sys2Proof.Machine
end

section
/-! Where the two commands stop, what they leave unchanged, and on what their outcome depends (R31, R35,
R45, R52, R100, R101, R122). -/

namespace Sys2Proof.Machine

/-- Settles O26: both indices as numbers, on every length and on the greatest. -/
theorem appendIndicesDoNotWrap : Obligations.AppendIndicesDoNotWrap :=
  ⟨fun n => ⟨lowIndex_toNat n, highIndex_toNat n⟩, lowIndex_toNat _, highIndex_toNat _⟩

/-! ### What a command leaves unchanged -/

/-- Settles O23: `CRC16`, where it is taken, writes registers only. -/
theorem crc16Frame : Obligations.Crc16Frame := by
  intro s t n h
  obtain ⟨-, rfl⟩ | ⟨hp, bs, -, rfl⟩ := execCrc16_next h
  · exact ⟨fun _ => rfl, rfl, rfl, ⟨rfl, rfl, rfl, rfl⟩, fun _ => rfl⟩
  · exact ⟨fun _ => rfl, rfl, rfl, ⟨rfl, rfl, rfl, rfl⟩, fun hbusy => absurd hp hbusy⟩

/-- Settles O24: `APPEND_CRC16`, where it is taken, writes registers and its two cells. -/
theorem appendFrame : Obligations.AppendFrame := by
  intro s t n h
  obtain ⟨-, rfl⟩ | ⟨hp, -, bs, -, rfl⟩ := execAppendCrc16_next h
  · exact ⟨fun _ _ _ => ⟨rfl, Iff.rfl⟩, ⟨rfl, rfl, rfl, rfl⟩, fun _ => rfl⟩
  · refine ⟨fun a hlo hhi => ?_, ⟨rfl, rfl, rfl, rfl⟩, fun hbusy => absurd hp hbusy⟩
    rw [lowIndex_toNat] at hlo
    rw [highIndex_toNat] at hhi
    exact ⟨appendChecksum_get?_of_ne hlo hhi, mem_void_appendChecksum_of_ne hlo hhi⟩

/-! ### Where a command stops -/

/-- R35: cells that all hold a byte are read whole. -/
theorem readCells_of_holdsByte {s : State} {i n : Nat}
    (h : ∀ k, k < n → ∃ b, HoldsByte s (i + k) b) : ∃ bs, readCells s i n = .ok bs := by
  cases hr : readCells s i n with
  | ok bs => exact ⟨bs, rfl⟩
  | error f =>
    obtain ⟨k, hk, hf⟩ := readCells_error hr
    exact absurd (h k hk) (memRead_error_iff.1 ⟨f, hf⟩)

/-- R100: a call's input is there exactly when each of its cells holds a byte. -/
theorem exists_inputIs_iff (s : State) (n : Word) :
    (∃ bs, InputIs s n.toNat bs) ↔ ∀ i, i < n.toNat → ∃ b, HoldsByte s i b := by
  refine ⟨fun ⟨bs, _, hbytes⟩ i hi => ?_, fun h => ?_⟩
  · obtain ⟨b, -, hold⟩ := hbytes i hi
    exact ⟨b, hold⟩
  · obtain ⟨bs, hbs⟩ := readCells_of_holdsByte (s := s) (i := 0) (n := n.toNat)
      fun k hk => by rw [Nat.zero_add]; exact h k hk
    exact ⟨bs, inputBytes_ok_iff.1 hbs⟩

/-- R35, R122: a cell of the input without a byte stops the reading, for one of two reasons. -/
theorem inputBytes_error_of_missing {s : State} {n : Word} (h : ¬ ∃ bs, InputIs s n.toNat bs) :
    ∃ f, inputBytes n s = .error f ∧ f ≠ .noRoomForChecksum := by
  cases hr : inputBytes n s with
  | ok bs => exact absurd ⟨bs, inputBytes_ok_iff.1 hr⟩ h
  | error f =>
    obtain ⟨k, -, hf⟩ := readCells_error hr
    refine ⟨f, rfl, ?_⟩
    obtain ⟨rfl, -⟩ | ⟨rfl, -⟩ := memRead_error hf <;> decide

/-- R35: without its input, a command in `IDLE` stops as the reading does. -/
theorem exec_of_inputBytes_error {s : State} {i : Instr} {f : Fault} (hp : s.phase = .idle)
    (hf : inputBytes i.len s = .error f) : exec i s = .fault f := by
  have hidle := (busy_eq_false_iff s).2 hp
  cases i with
  | crc16 n =>
    rw [Instr.len] at hf
    rw [exec, execCrc16, hidle, hf]
    rfl
  | appendCrc16 n =>
    rw [Instr.len] at hf
    rw [exec, execAppendCrc16, hidle, hf]
    rfl

/-- R144, U9: with its input but without its two cells, an append stops by name. -/
theorem exec_appendCrc16_of_noRoom {s : State} {n : Word} {bs : List Byte} (hp : s.phase = .idle)
    (hin : InputIs s n.toNat bs) (hroom : ¬ HasRoom s n) :
    exec (.appendCrc16 n) s = .fault .noRoomForChecksum := by
  have hno : roomForChecksum n s = false := by
    rwa [← Bool.not_eq_true, roomForChecksum_iff]
  rw [exec, execAppendCrc16, (busy_eq_false_iff s).2 hp, inputBytes_ok_iff.2 hin, hno]
  rfl

/-- R120: no command is refused. -/
theorem exec_ne_refused (i : Instr) (s : State) (r : Refusal) : exec i s ≠ .refused r := by
  by_cases hp : s.phase = .idle
  · by_cases hin : ∃ bs, InputIs s i.len.toNat bs
    · obtain ⟨bs, hin⟩ := hin
      cases i with
      | crc16 n => simp [exec_crc16_of_inputIs (n := n) hp hin]
      | appendCrc16 n =>
        by_cases hroom : HasRoom s n
        · simp [exec_appendCrc16_of_inputIs (n := n) hp hin hroom]
        · simp [exec_appendCrc16_of_noRoom (n := n) hp hin hroom]
    · obtain ⟨f, hf, -⟩ := inputBytes_error_of_missing hin
      simp [exec_of_inputBytes_error hp hf]
  · simp [exec_of_busy i hp]

/-- Settles O28: three cases, by whether the input is there and, for an append, whether the two cells
are. -/
theorem commandStopsOnlyOnMissingCells : Obligations.CommandStopsOnlyOnMissingCells := by
  intro s n hp
  have hmissing : (∃ i, i < n.toNat ∧ ¬ ∃ b, HoldsByte s i b) ↔ ¬ ∃ bs, InputIs s n.toNat bs := by
    rw [exists_inputIs_iff]
    push Not
    rfl
  rw [hmissing, ← exists_inputIs_iff]
  by_cases hin : ∃ bs, InputIs s n.toNat bs
  · have ⟨bs, hbs⟩ := hin
    by_cases hroom : HasRoom s n
    · simp only [exec_crc16_of_inputIs hp hbs, exec_appendCrc16_of_inputIs hp hbs hroom]
      simp [hin, hroom, exec_ne_refused]
    · simp only [exec_crc16_of_inputIs hp hbs, exec_appendCrc16_of_noRoom hp hbs hroom]
      simp [hin, hroom, exec_ne_refused]
  · obtain ⟨f, hf, hname⟩ := inputBytes_error_of_missing hin
    have hcrc := exec_of_inputBytes_error (i := .crc16 n) hp hf
    have happ := exec_of_inputBytes_error (i := .appendCrc16 n) hp hf
    simp only [hcrc, happ]
    simp [hin, hname, exec_ne_refused]

/-! ### The outcome -/

/-- Settles O29: both calls complete, with results that name the command and the bytes only. -/
theorem outcomeDependsOnlyOnInput : Obligations.OutcomeDependsOnlyOnInput := by
  intro s s' i bs hp hp' hin hin' hroom
  cases i with
  | crc16 n =>
    exact ⟨_, _, exec_crc16_of_inputIs hp hin, exec_crc16_of_inputIs hp' hin',
      ⟨rfl, rfl, rfl, rfl, rfl, rfl⟩, fun hop => absurd hop (by decide : (0#1 : OpBit) ≠ 1#1)⟩
  | appendCrc16 n =>
    obtain ⟨hr, hr'⟩ := hroom rfl
    obtain ⟨t, ht, hcrc, hdone, hphase, hidx, hop, hlen, ⟨-, -, hlo⟩, ⟨-, -, hhi⟩, -⟩ :=
      appendCommandResult s n bs hp hin hr
    obtain ⟨t', ht', hcrc', hdone', hphase', hidx', hop', hlen', ⟨-, -, hlo'⟩,
      ⟨-, -, hhi'⟩, -⟩ :=
      appendCommandResult s' n bs hp' hin' hr'
    exact ⟨t, t', ht, ht', ⟨hcrc.trans hcrc'.symm, hlen.trans hlen'.symm, hop.trans hop'.symm,
      hidx.trans hidx'.symm, hphase.trans hphase'.symm, hdone.trans hdone'.symm⟩,
      fun _ => ⟨hlo.trans hlo'.symm, hhi.trans hhi'.symm⟩⟩

/-- R41: two bytes that read as a word are its bytes. -/
theorem bytes_of_toNat_eq {lo hi : Byte} {c : Word} (h : lo.toNat + 256 * hi.toNat = c.toNat) :
    lo = lowByte c ∧ hi = highByte c := by
  have hlo := lo.isLt
  have hsum := lowByte_add_highByte c
  have hlow := (lowByte c).isLt
  constructor <;> (apply BitVec.eq_of_toNat_eq; omega)

/-- Settles O30: the appended sequence is the input of the second call, and its checksum is zero. -/
theorem checksumOfAppendedBufferIsZero : Obligations.ChecksumOfAppendedBufferIsZero := by
  intro s t n hp hn h
  obtain ⟨hbusy, -⟩ | ⟨-, hroom, bs, hin, ht⟩ := execAppendCrc16_next h
  · exact absurd hp hbusy
  have hidle : t.phase = .idle := by rw [ht]; rfl
  obtain ⟨t', lo, hi, ht', hin', hbytes⟩ := appendedSequence s n bs hp hin hroom
  obtain ⟨rfl, rfl⟩ := bytes_of_toNat_eq hbytes
  obtain rfl : t = t' := Host.Outcome.next.inj (h.symm.trans ht')
  have hlen : (n + 2#16).toNat = n.toNat + 2 := by
    rw [BitVec.toNat_add, BitVec.toNat_ofNat]
    omega
  rw [← hlen] at hin'
  exact ⟨_, exec_crc16_of_inputIs hidle hin', appendedChecksumHasZeroResidue bs, rfl⟩

end Sys2Proof.Machine
end

section
/-! Runs of the block left to itself: an append without room, the small steps of a call against the whole
call, and the end of every call (R102 to R106, R110, R144). -/

namespace Sys2Proof.Machine

/-! ### Runs -/

theorem runSteps_of_next {s s' : State} (h : step s = .next s') (k : Nat) :
    runSteps (k + 1) s = runSteps k s' := by
  rw [runSteps, h]

theorem runSteps_of_fault {s : State} {f : Fault} (h : step s = .fault f) (k : Nat) :
    runSteps (k + 1) s = .fault f := by
  rw [runSteps, h]

/-- What every step keeps holds at the end of every run. -/
theorem runSteps_keeps {P : State → Prop} (hstep : ∀ s t, P s → step s = .next t → P t) {k : Nat}
    {s t : State} (hs : P s) (h : runSteps k s = .next t) : P t := by
  induction k generalizing s with
  | zero => exact Host.Outcome.next.inj h ▸ hs
  | succ k ih =>
    cases hnext : step s with
    | next s' => exact ih (hstep s s' hs hnext) (runSteps_of_next hnext k ▸ h)
    | fault f => rw [runSteps, hnext] at h; cases h
    | refused r => rw [runSteps, hnext] at h; cases h

/-! ### An append without room -/

/-- An append of `n` bytes over the cells of `s₀`, without room, somewhere on its way, left to itself. -/
structure AppendOnItsWay (s₀ : State) (n : Word) (s : State) : Prop where
  host : s.host = []
  cells : s.cells = s₀.cells
  len : s.len = n
  op : s.op = 1#1
  done : s.done = false
  busy : s.phase ≠ .idle
  input : ∀ a, a < n.toNat → s.buf.get? a = s₀.buf.get? a

/-- R144: no step leads an append without room out of it: `END` goes on to write, and `APPHI`, which would
end the call, is stuck. -/
theorem AppendOnItsWay.step {s₀ s t : State} {n : Word} (hroom : ¬ HasRoom s₀ n)
    (h : AppendOnItsWay s₀ n s) (hstep : step s = .next t) : AppendOnItsWay s₀ n t := by
  obtain ⟨hhost, hcells, hlen, hop, hdone, hbusy, hinput⟩ := h
  rw [step_noMove hhost] at hstep
  obtain rfl | ⟨hp, -, b, -, rfl⟩ | ⟨-, -, hop', -⟩ | ⟨-, -, -, rfl⟩ | ⟨-, -, rfl⟩ | ⟨-, hc, -⟩ :=
    blockStep_next hstep
  · exact ⟨hhost, hcells, hlen, hop, hdone, hbusy, hinput⟩
  · exact ⟨hhost, hcells, hlen, hop, hdone, hbusy, hinput⟩
  · rw [hop] at hop'
    exact absurd hop' (by decide)
  · exact ⟨hhost, hcells, hlen, hop, hdone, by simp, hinput⟩
  · refine ⟨hhost, hcells, hlen, hop, hdone, by simp, fun a ha => ?_⟩
    have hne : a ≠ s.len.toNat := by rw [hlen]; exact Nat.ne_of_lt ha
    exact (Memory.get?_set_ne s.buf _ hne).trans (hinput a ha)
  · rw [hlen, hcells] at hc
    exact absurd hc hroom

/-- Settles O37: `START` begins such an append, and every step keeps it so. -/
theorem appendWithoutRoomNeverDone : Obligations.AppendWithoutRoomNeverDone := by
  intro s t n k hroom h
  have hstart : AppendOnItsWay s n (latchCommand 1#1 n { s with host := [] }) :=
    ⟨rfl, rfl, rfl, rfl, rfl, by simp, fun _ _ => rfl⟩
  have hend := runSteps_keeps (fun _ _ h hstep => h.step hroom hstep) hstart h
  exact ⟨hend.done, hend.busy, hend.input⟩

/-! ### The bytes of a call -/

/-- One `BYTE` for each of the bytes. -/
def consumeBytes (bs : List Byte) (s : State) : State := bs.foldl (fun s b => consumeByte b s) s

/-- R103: the bytes go into the accumulator, and `idx` counts them. -/
theorem consumeBytes_eq (bs : List Byte) (s : State) :
    consumeBytes bs s =
      { s with crc := bs.foldl upd s.crc, idx := s.idx + BitVec.ofNat 16 bs.length } := by
  induction bs generalizing s with
  | nil => simp [consumeBytes]
  | cons b bs ih =>
    have hrest : consumeBytes (b :: bs) s = consumeBytes bs (consumeByte b s) := rfl
    have hidx : s.idx + 1#16 + BitVec.ofNat 16 bs.length =
        s.idx + BitVec.ofNat 16 (b :: bs).length := by
      rw [BitVec.add_assoc, ← BitVec.ofNat_add, Nat.add_comm, List.length_cons]
    rw [hrest, ih, consumeByte_crc, consumeByte_idx, hidx]
    rfl

/-- What a range reads as depends on the cells alone. -/
theorem readCells_congr {s t : State} (hcells : t.cells = s.cells) (hvoid : t.void = s.void)
    (hbuf : t.buf = s.buf) (i n : Nat) : readCells t i n = readCells s i n := by
  induction n generalizing i with
  | zero => rfl
  | succ n ih =>
    rw [readCells, readCells, memRead_congr hcells (by rw [hvoid]) (by rw [hbuf]), ih]

theorem inputBytes_withHost (ms : List HostMove) (n : Word) (s : State) :
    inputBytes n (withHost ms s) = inputBytes n s :=
  readCells_congr (s := s) (t := withHost ms s) rfl rfl rfl 0 n.toNat

/-- A block in `RUN` with no host move to come and `m` bytes of its input left. -/
structure Running (m : Nat) (s : State) : Prop where
  host : s.host = []
  phase : s.phase = .run
  left : s.idx.toNat + m = s.len.toNat

/-- R103: a running block with a byte left is about to take it. -/
theorem Running.idx_lt {m : Nat} {s : State} (h : Running (m + 1) s) : s.idx < s.len := by
  have := h.left
  rw [BitVec.lt_def]
  omega

/-- R103: the byte taken is one less to take. -/
theorem Running.consumeByte {m : Nat} {s : State} (h : Running (m + 1) s) (b : Byte) :
    Running m (consumeByte b s) := by
  refine ⟨h.host, h.phase, ?_⟩
  rw [consumeByte_idx, consumeByte_len, toNat_add_one_of_lt h.idx_lt, ← h.left]
  omega

/-- R110: the `BYTE`s that remain consume the cells that remain, or stop where reading them stops. -/
theorem runSteps_bytes {m : Nat} {s : State} (h : Running m s) (k : Nat) :
    runSteps (m + k) s =
      match readCells s s.idx.toNat m with
      | .ok bs => runSteps k (consumeBytes bs s)
      | .error f => .fault f := by
  induction m generalizing s with
  | zero => rw [Nat.zero_add]; rfl
  | succ m ih =>
    have hcount : m + 1 + k = (m + k) + 1 := by omega
    rw [hcount, readCells]
    cases hr : memRead s s.idx.toNat with
    | error f =>
      exact runSteps_of_fault (by rw [step_noMove h.host, blockStep_byte_error h.phase h.idx_lt hr]) _
    | ok b =>
      have hread := readCells_congr (s := s) (t := consumeByte b s) rfl rfl rfl
      have hstep : step s = .next (consumeByte b s) := by
        rw [step_noMove h.host, blockStep_byte h.phase h.idx_lt (memRead_ok_iff.1 hr)]
      rw [runSteps_of_next hstep, ih (h.consumeByte b), hread, consumeByte_idx,
        toNat_add_one_of_lt h.idx_lt]
      cases readCells s (s.idx.toNat + 1) m <;> rfl

/-- R103: as many bytes as are left leave none. -/
theorem Running.consumeBytes {bs : List Byte} {s : State} (h : Running bs.length s) :
    Running 0 (consumeBytes bs s) := by
  induction bs generalizing s with
  | nil => exact h
  | cons b bs ih => exact ih (h.consumeByte b)

/-- R26: with no byte left, `idx` is `len`. -/
theorem Running.idx_eq {s : State} (h : Running 0 s) : s.idx = s.len :=
  BitVec.eq_of_toNat_eq h.left

/-! ### The steps after the bytes -/

/-- R104: `END` of `CRC16`. -/
theorem runSteps_endCrc16 {s : State} (h : Running 0 s) (hop : s.op = 0#1) :
    runSteps 1 s = .next (completeCall s) :=
  runSteps_of_next (by rw [step_noMove h.host, blockStep_end h.phase h.idx_eq, endStep, if_pos hop]) 0

/-- R106: `APPHI` with its cell. -/
theorem runSteps_appHi {s : State} (hhost : s.host = []) (hp : s.phase = .appHi)
    (hroom : HasRoom s s.len) :
    runSteps 1 s = .next (completeCall (memWrite s (highIndex s.len).toNat (highByte s.crc))) := by
  rw [runSteps_of_next (by rw [step_noMove hhost, blockStep_appHi hp hroom]), highIndex_toNat]
  rfl

/-- R105, R106: `APPLO` and `APPHI` with their cells are the two stores of an append. -/
theorem runSteps_appLo {s : State} (hhost : s.host = []) (hp : s.phase = .appLo)
    (hroom : HasRoom s s.len) :
    runSteps 2 s = .next (completeCall (appendChecksum s.len s.crc s)) := by
  have hc : s.len.toNat < s.cells := Nat.lt_of_succ_lt hroom
  rw [runSteps_of_next (by rw [step_noMove hhost, blockStep_appLo hp hc]),
    runSteps_appHi (s := setPhase .appHi (memWrite s s.len.toNat (lowByte s.crc))) hhost rfl hroom,
    appendChecksum, lowIndex_toNat]
  rfl

/-- R104 to R106: `END` of an append with room, and its two stores. -/
theorem runSteps_endAppend {s : State} (h : Running 0 s) (hop : s.op = 1#1) (hroom : HasRoom s s.len) :
    runSteps 3 s = .next (completeCall (appendChecksum s.len s.crc s)) := by
  have hend : step s = .next (setPhase .appLo s) := by
    rw [step_noMove h.host, blockStep_end h.phase h.idx_eq, endStep, if_neg (by rw [hop]; decide)]
  rw [runSteps_of_next hend, runSteps_appLo (s := setPhase .appLo s) h.host rfl hroom]
  rfl

/-! ### The small steps of a call make the call -/

/-- The block with the whole input of a command consumed, about to take `END`. -/
def atEnd (i : Instr) (bs : List Byte) (s : State) : State :=
  consumeBytes bs (latchCommand i.op i.len (withHost [] s))

/-- R102: `START` leaves a running block with every byte still to take. -/
theorem running_latchCommand (i : Instr) (s : State) :
    Running i.len.toNat (latchCommand i.op i.len (withHost [] s)) :=
  ⟨rfl, rfl, Nat.zero_add _⟩

theorem running_atEnd {i : Instr} {bs : List Byte} (hlen : bs.length = i.len.toNat) (s : State) :
    Running 0 (atEnd i bs s) :=
  Running.consumeBytes (hlen ▸ running_latchCommand i s)

/-- R85: the accumulator is then the checksum of the input, and `idx` is `len`. -/
theorem atEnd_eq {i : Instr} {bs : List Byte} (hlen : bs.length = i.len.toNat) (s : State) :
    atEnd i bs s =
      { s with
        op := i.op, len := i.len, idx := i.len, crc := crc16 bs, done := false, phase := .run,
        host := [] } := by
  have hidx : (0#16 : Word) + BitVec.ofNat 16 bs.length = i.len := by
    rw [hlen, BitVec.zero_add, BitVec.ofNat_toNat, BitVec.setWidth_eq]
  rw [atEnd, consumeBytes_eq, latchCommand_idx, hidx]
  rfl

/-- R110: `START` and the `BYTE`s of a command read its input, or stop where reading it stops. -/
theorem runSteps_start {s : State} (hp : s.phase = .idle) (i : Instr) (k : Nat) :
    runSteps (i.len.toNat + k + 1) { s with host := [.start (encode i)] } =
      match inputBytes i.len s with
      | .ok bs => runSteps k (atEnd i bs s)
      | .error f => .fault f := by
  have hstart : step { s with host := [.start (encode i)] } =
      .next (latchCommand i.op i.len (withHost [] s)) := by
    rw [step_start_of_idle (s := { s with host := [.start (encode i)] }) rfl hp, decode_encode]
    rfl
  have hread : readCells (latchCommand i.op i.len (withHost [] s)) 0 i.len.toNat =
      inputBytes i.len s :=
    readCells_congr (s := s) (t := latchCommand i.op i.len (withHost [] s)) rfl rfl rfl 0 i.len.toNat
  rw [runSteps_of_next hstart, runSteps_bytes (running_latchCommand i s), latchCommand_idx,
    BitVec.toNat_ofNat, Nat.zero_mod, hread]
  cases inputBytes i.len s <;> rfl

/-- Settles O46: where the input is there, `END` gives what the call gives; where it is not, both stop as
the reading does. -/
theorem smallStepsMakeCrc16Call : Obligations.SmallStepsMakeCrc16Call := by
  intro s n hp
  refine (runSteps_start hp (.crc16 n) 1).trans ?_
  cases hr : inputBytes (Instr.crc16 n).len s with
  | error f =>
    rw [← inputBytes_withHost []] at hr
    exact (exec_of_inputBytes_error (s := withHost [] s) hp hr).symm
  | ok bs =>
    have hin : InputIs s n.toNat bs := inputBytes_ok_iff.1 hr
    have ⟨hlen, _⟩ := hin
    have hend := running_atEnd (i := .crc16 n) hlen s
    have heq := atEnd_eq (i := .crc16 n) hlen s
    rw [exec_crc16_of_inputIs (s := { s with host := [] }) hp hin]
    exact (runSteps_endCrc16 hend (by rw [heq]; rfl)).trans (by rw [heq]; rfl)

/-- Settles O47: as for `CRC16`, with `END` and the two stores after the input. -/
theorem smallStepsMakeAppendCall : Obligations.SmallStepsMakeAppendCall := by
  intro s n hp hroom
  refine (runSteps_start hp (.appendCrc16 n) 3).trans ?_
  cases hr : inputBytes (Instr.appendCrc16 n).len s with
  | error f =>
    rw [← inputBytes_withHost []] at hr
    exact (exec_of_inputBytes_error (s := withHost [] s) hp hr).symm
  | ok bs =>
    have hin : InputIs s n.toNat bs := inputBytes_ok_iff.1 hr
    have ⟨hlen, _⟩ := hin
    have hend := running_atEnd (i := .appendCrc16 n) hlen s
    have heq := atEnd_eq (i := .appendCrc16 n) hlen s
    rw [exec_appendCrc16_of_inputIs (s := { s with host := [] }) hp hin hroom]
    exact (runSteps_endAppend hend (by rw [heq]; rfl) (by rw [heq]; exact hroom)).trans
      (by rw [heq]; rfl)

/-! ### Every call ends -/

/-- R110: a running block with the rest of its input there, and its two cells for an append, completes the
call in at most three steps more than it has bytes left. -/
theorem Running.ends {m : Nat} {s : State} (h : Running m s)
    (hbytes : ∀ k, k < m → ∃ b, HoldsByte s (s.idx.toNat + k) b)
    (hroom : s.op = 1#1 → HasRoom s s.len) :
    ∃ k t, k ≤ 3 ∧ runSteps (m + k) s = .next t ∧ t.done = true ∧ t.phase = .idle := by
  obtain ⟨bs, hbs⟩ := readCells_of_holdsByte hbytes
  obtain ⟨rfl, -⟩ := readCells_ok_iff.1 hbs
  have hend := h.consumeBytes
  have hop : (Machine.consumeBytes bs s).op = s.op := by rw [consumeBytes_eq]
  obtain hop0 | hop1 := opBit_cases s.op
  · have hrun := runSteps_endCrc16 hend (hop.trans hop0)
    exact ⟨1, _, by decide, by rw [runSteps_bytes h, hbs]; exact hrun, rfl, rfl⟩
  · have hroom' : HasRoom (Machine.consumeBytes bs s) (Machine.consumeBytes bs s).len := by
      rw [consumeBytes_eq]
      exact hroom hop1
    have hrun := runSteps_endAppend hend (hop.trans hop1) hroom'
    exact ⟨3, _, Nat.le_refl 3, by rw [runSteps_bytes h, hbs]; exact hrun, rfl, rfl⟩

/-- Settles O48: from `RUN` by the bytes left, from the append phases by the stores left. -/
theorem everyCallEnds : Obligations.EveryCallEnds := by
  rintro s ⟨-, hle, -, happ, -⟩ hbusy hhost hbytes hroom
  cases hp : s.phase with
  | idle => exact absurd hp hbusy
  | run =>
    have hidx : s.idx.toNat ≤ s.len.toNat := hle
    have hrunning : Running (s.len.toNat - s.idx.toNat) s := ⟨hhost, hp, by omega⟩
    obtain ⟨k, t, hk, hrun, hdone⟩ := hrunning.ends
      (fun j hj => hbytes (s.idx.toNat + j) (by omega) (by omega)) hroom
    exact ⟨_, t, by omega, hrun, hdone⟩
  | appLo =>
    exact ⟨2, _, by omega, runSteps_appLo hhost hp (hroom (happ (.inl hp))), rfl, rfl⟩
  | appHi =>
    exact ⟨1, _, by omega, runSteps_appHi hhost hp (hroom (happ (.inr hp))), rfl, rfl⟩

end Sys2Proof.Machine
end
